-- ==== Sys2Proof/Word.lean ====
section
/-! DEFINITION. The value types of the machine: bytes, 16-bit words, 12-bit address fields and register indices
(00_scope.md R8; every value is an unsigned number of a stated width). -/

namespace Sys2Proof

/-- An 8-bit value: a general register, a timer, a memory cell, the immediate `kk` (10_state.md R10, 30_encoding.md R61). -/
abbrev Byte := BitVec 8

/-- A 16-bit value: an instruction word, `I`, `PC`, a stack entry (10_state.md R14, R16, R19). -/
abbrev Word := BitVec 16

/-- The 12-bit address field `nnn` (30_encoding.md R61). -/
abbrev Addr12 := BitVec 12

/-- The index of a general register: every index an instruction can form is valid (10_state.md R10). -/
abbrev RegIdx := Fin 16

/-- `VF`, the register some instructions also write as a flag (10_state.md R11). -/
abbrev vF : RegIdx := 15

end Sys2Proof
end

