-- ==== Sys2Proof/Syntax.lean ====
section
/-! DEFINITION. The 23 instructions, one constructor per row of spec/opcode_table.json, in the table's order
(30_encoding.md R66). Operands carry their bounds in their types (R61, R62). -/

namespace Sys2Proof

/-- The instructions of 30_encoding.md R66. `x`, `y` are register indices, `kk` an immediate byte, `nnn` a 12-bit
address and `n` a sprite height of 0 to 15 rows. -/
inductive Instr where
  /-- `00E0` CLS (44_display.md R130). -/
  | cls
  /-- `00EE` RET (40_flow.md R80). -/
  | ret
  /-- `1nnn` JP nnn (40_flow.md R81). -/
  | jp (nnn : Addr12)
  /-- `2nnn` CALL nnn (40_flow.md R82). -/
  | call (nnn : Addr12)
  /-- `3xkk` SE Vx, kk (41_skip.md R90). -/
  | se (x : RegIdx) (kk : Byte)
  /-- `4xkk` SNE Vx, kk (41_skip.md R91). -/
  | sne (x : RegIdx) (kk : Byte)
  /-- `5xy0` SE Vx, Vy (41_skip.md R92). -/
  | seReg (x y : RegIdx)
  /-- `6xkk` LD Vx, kk (42_load_imm.md R100). -/
  | ld (x : RegIdx) (kk : Byte)
  /-- `7xkk` ADD Vx, kk (42_load_imm.md R101). -/
  | add (x : RegIdx) (kk : Byte)
  /-- `8xy0` LD Vx, Vy (43_alu.md R111). -/
  | ldReg (x y : RegIdx)
  /-- `8xy1` OR Vx, Vy (43_alu.md R112). -/
  | or (x y : RegIdx)
  /-- `8xy2` AND Vx, Vy (43_alu.md R113). -/
  | and (x y : RegIdx)
  /-- `8xy3` XOR Vx, Vy (43_alu.md R114). -/
  | xor (x y : RegIdx)
  /-- `8xy4` ADD Vx, Vy (43_alu.md R115). -/
  | addReg (x y : RegIdx)
  /-- `8xy5` SUB Vx, Vy (43_alu.md R116). -/
  | sub (x y : RegIdx)
  /-- `8xy6` SHR Vx; `y` is a field of the word that selects nothing (43_alu.md R117, 30_encoding.md R69). -/
  | shr (x y : RegIdx)
  /-- `8xy7` SUBN Vx, Vy (43_alu.md R118). -/
  | subn (x y : RegIdx)
  /-- `8xyE` SHL Vx; `y` is a field of the word that selects nothing (43_alu.md R119, 30_encoding.md R69). -/
  | shl (x y : RegIdx)
  /-- `9xy0` SNE Vx, Vy (41_skip.md R93). -/
  | sneReg (x y : RegIdx)
  /-- `Annn` LD I, nnn (42_load_imm.md R102). -/
  | ldI (nnn : Addr12)
  /-- `Bnnn` JP V0, nnn (40_flow.md R83). -/
  | jpV0 (nnn : Addr12)
  /-- `Cxkk` RND Vx, kk (42_load_imm.md R104). -/
  | rnd (x : RegIdx) (kk : Byte)
  /-- `Dxyn` DRW Vx, Vy, n (44_display.md R131). -/
  | drw (x y : RegIdx) (n : Fin 16)
deriving DecidableEq, Repr

end Sys2Proof
end

