-- ==== Sys2Proof/WellFormed.lean ====
section
/-! DEFINITION. Well-formedness of an instruction: every operand fits the field that carries it (30_encoding.md R61, R62).
The operand types of `Instr` already carry these bounds, so a term of type `Instr` always passes
(`Sys2Proof.Laws.WellFormedTerm`); the check refuses an operand list that no word could hold. -/

namespace Sys2Proof

/-- An operand as the encoding sees it: the width of its field and its value. -/
structure Operand where
  width : Nat
  value : Nat
deriving DecidableEq, Repr

/-- The value fits the field. -/
def Operand.fits (o : Operand) : Bool := decide (o.value < 2 ^ o.width)

/-- A register field `x` or `y`: 4 bits. -/
def Operand.reg (r : RegIdx) : Operand := { width := 4, value := r.val }

/-- The immediate `kk`: 8 bits. -/
def Operand.imm (kk : Byte) : Operand := { width := 8, value := kk.toNat }

/-- The address `nnn`: 12 bits. -/
def Operand.addr (nnn : Addr12) : Operand := { width := 12, value := nnn.toNat }

/-- The sprite height `n`: 4 bits. -/
def Operand.rows (n : Fin 16) : Operand := { width := 4, value := n.val }

/-- The operands of an instruction, in the order of its form (30_encoding.md R61, column "fields used"). -/
def Instr.operands : Instr → List Operand
  | .cls => []
  | .ret => []
  | .jp nnn => [.addr nnn]
  | .call nnn => [.addr nnn]
  | .se x kk => [.reg x, .imm kk]
  | .sne x kk => [.reg x, .imm kk]
  | .seReg x y => [.reg x, .reg y]
  | .ld x kk => [.reg x, .imm kk]
  | .add x kk => [.reg x, .imm kk]
  | .ldReg x y => [.reg x, .reg y]
  | .or x y => [.reg x, .reg y]
  | .and x y => [.reg x, .reg y]
  | .xor x y => [.reg x, .reg y]
  | .addReg x y => [.reg x, .reg y]
  | .sub x y => [.reg x, .reg y]
  | .shr x y => [.reg x, .reg y]
  | .subn x y => [.reg x, .reg y]
  | .shl x y => [.reg x, .reg y]
  | .sneReg x y => [.reg x, .reg y]
  | .ldI nnn => [.addr nnn]
  | .jpV0 nnn => [.addr nnn]
  | .rnd x kk => [.reg x, .imm kk]
  | .drw x y n => [.reg x, .reg y, .rows n]

/-- The operand list fits the 12 bits below the op-group, each operand its own field. -/
def operandsWf (os : List Operand) : Bool :=
  os.all Operand.fits && decide ((os.map Operand.width).sum ≤ 12)

/-- An instruction is well formed: its operands fit their fields. -/
def Instr.wf (i : Instr) : Bool := operandsWf i.operands

end Sys2Proof
end

