-- ==== Sys2Proof/Decode.lean ====
section
/-! DEFINITION. The encoding: the six fields of a word, the opcode map as a table, the decoder (total on every word and on
every byte string, refusing by name), and the encoder (30_encoding.md R60 to R69, 45_illegal.md R140 to R145). -/

namespace Sys2Proof

/-! ### Fields of a word (30_encoding.md R61) -/

/-- `op`, bits 15:12. -/
def opOf (w : Word) : BitVec 4 := w.extractLsb' 12 4

/-- A nibble of the word as a register index or a count. -/
def nibbleIdx (b : BitVec 4) : Fin 16 := b.toFin

/-- `x`, bits 11:8. -/
def xOf (w : Word) : RegIdx := nibbleIdx (w.extractLsb' 8 4)

/-- `y`, bits 7:4. -/
def yOf (w : Word) : RegIdx := nibbleIdx (w.extractLsb' 4 4)

/-- `n`, bits 3:0, as a count. -/
def nOf (w : Word) : Fin 16 := nibbleIdx (w.extractLsb' 0 4)

/-- `n`, bits 3:0, as the secondary opcode of groups 5, 8 and 9. -/
def subOpOf (w : Word) : BitVec 4 := w.extractLsb' 0 4

/-- `kk`, bits 7:0. -/
def kkOf (w : Word) : Byte := w.extractLsb' 0 8

/-- `nnn`, bits 11:0. -/
def nnnOf (w : Word) : Addr12 := w.extractLsb' 0 12

/-! ### The opcode map as a table (30_encoding.md R64, R66) -/

/-- A row of the opcode map: the word selects the row when `w &&& mask = bits`. -/
structure OpcodeRow where
  mnemonic : String
  mask : Word
  bits : Word
deriving DecidableEq, Repr

/-- Rows 1 to 9 of 30_encoding.md R66. -/
def opcodeRowsPlain : List OpcodeRow :=
  [⟨"CLS", 0xFFFF, 0x00E0⟩, ⟨"RET", 0xFFFF, 0x00EE⟩, ⟨"JP", 0xF000, 0x1000⟩, ⟨"CALL", 0xF000, 0x2000⟩,
   ⟨"SE", 0xF000, 0x3000⟩, ⟨"SNE", 0xF000, 0x4000⟩, ⟨"SE_reg", 0xF00F, 0x5000⟩, ⟨"LD", 0xF000, 0x6000⟩,
   ⟨"ADD", 0xF000, 0x7000⟩]

/-- Rows 10 to 18 of 30_encoding.md R66: op-group 8. -/
def opcodeRowsAlu : List OpcodeRow :=
  [⟨"LD_reg", 0xF00F, 0x8000⟩, ⟨"OR", 0xF00F, 0x8001⟩, ⟨"AND", 0xF00F, 0x8002⟩, ⟨"XOR", 0xF00F, 0x8003⟩,
   ⟨"ADD_reg", 0xF00F, 0x8004⟩, ⟨"SUB", 0xF00F, 0x8005⟩, ⟨"SHR", 0xF00F, 0x8006⟩, ⟨"SUBN", 0xF00F, 0x8007⟩,
   ⟨"SHL", 0xF00F, 0x800E⟩]

/-- Rows 19 to 23 of 30_encoding.md R66. -/
def opcodeRowsHigh : List OpcodeRow :=
  [⟨"SNE_reg", 0xF00F, 0x9000⟩, ⟨"LD_I", 0xF000, 0xA000⟩, ⟨"JP+V0", 0xF000, 0xB000⟩, ⟨"RND", 0xF000, 0xC000⟩,
   ⟨"DRW", 0xF000, 0xD000⟩]

/-- The opcode map, in the order of the source's table (30_encoding.md R66). -/
def opcodeTable : List OpcodeRow := opcodeRowsPlain ++ opcodeRowsAlu ++ opcodeRowsHigh

/-- The word selects the row (30_encoding.md R64). -/
def OpcodeRow.selectedBy (r : OpcodeRow) (w : Word) : Bool := w &&& r.mask == r.bits

/-- A word is legal when some row of the opcode map selects it (30_encoding.md R64, R67). -/
def legalWord (w : Word) : Bool := opcodeTable.any (fun r => r.selectedBy w)

/-! ### The decoder -/

/-- Why a word is illegal: the classes of 30_encoding.md R67. All of them raise the same fault (45_illegal.md R140). -/
inductive IllegalClass where
  /-- `0nnn` other than `00E0` and `00EE` (45_illegal.md R143). -/
  | group0
  /-- `5xyn` with `n` not 0 (45_illegal.md R144). -/
  | group5
  /-- `8xyn` with `n` in 8, 9, A, B, C, D, F (45_illegal.md R145). -/
  | group8
  /-- `9xyn` with `n` not 0 (45_illegal.md R144). -/
  | group9
  /-- `Ex9E`, `ExA1`, `Fx0A`: the keypad opcodes (45_illegal.md R141). -/
  | keypad
  /-- Every other `Exkk` (45_illegal.md R142). -/
  | groupE
  /-- Every other `Fxkk` (45_illegal.md R142). -/
  | groupF
deriving DecidableEq, Repr

/-- Why a byte string does not start with an instruction. -/
inductive DecodeError where
  /-- Fewer than two bytes (30_encoding.md R60: every instruction is 2 bytes). -/
  | truncated
  /-- The word matches no row of the opcode map (30_encoding.md R67). -/
  | illegal (w : Word) (why : IllegalClass)
deriving DecidableEq, Repr

/-- Group 0: only the two fixed words (30_encoding.md R64, R65). -/
def decodeGroup0 (w : Word) : Except DecodeError Instr :=
  if w = 0x00E0 then .ok .cls
  else if w = 0x00EE then .ok .ret
  else .error (.illegal w .group0)

/-- Group 5: `n` must be 0 (30_encoding.md R65, 45_illegal.md R144). -/
def decodeGroup5 (w : Word) : Except DecodeError Instr :=
  if subOpOf w = 0 then .ok (.seReg (xOf w) (yOf w)) else .error (.illegal w .group5)

/-- Group 9: `n` must be 0 (30_encoding.md R65, 45_illegal.md R144). -/
def decodeGroup9 (w : Word) : Except DecodeError Instr :=
  if subOpOf w = 0 then .ok (.sneReg (xOf w) (yOf w)) else .error (.illegal w .group9)

/-- Group 8: the secondary opcode is `n` (30_encoding.md R65, 45_illegal.md R145). -/
def decodeGroup8 (w : Word) : Except DecodeError Instr :=
  match subOpOf w with
  | 0x0 => .ok (.ldReg (xOf w) (yOf w))
  | 0x1 => .ok (.or (xOf w) (yOf w))
  | 0x2 => .ok (.and (xOf w) (yOf w))
  | 0x3 => .ok (.xor (xOf w) (yOf w))
  | 0x4 => .ok (.addReg (xOf w) (yOf w))
  | 0x5 => .ok (.sub (xOf w) (yOf w))
  | 0x6 => .ok (.shr (xOf w) (yOf w))
  | 0x7 => .ok (.subn (xOf w) (yOf w))
  | 0xE => .ok (.shl (xOf w) (yOf w))
  | _ => .error (.illegal w .group8)

/-- Group E: all illegal; the keypad skips are named apart (45_illegal.md R141, R142). -/
def decodeGroupE (w : Word) : Except DecodeError Instr :=
  if kkOf w = 0x9E ∨ kkOf w = 0xA1 then .error (.illegal w .keypad) else .error (.illegal w .groupE)

/-- Group F: all illegal; the keypad wait is named apart (45_illegal.md R141, R142). -/
def decodeGroupF (w : Word) : Except DecodeError Instr :=
  if kkOf w = 0x0A then .error (.illegal w .keypad) else .error (.illegal w .groupF)

/-- `decode`: total on the 65536 words (30_encoding.md R64, R65). The last arm is op-group F. -/
def decode (w : Word) : Except DecodeError Instr :=
  match opOf w with
  | 0x0 => decodeGroup0 w
  | 0x1 => .ok (.jp (nnnOf w))
  | 0x2 => .ok (.call (nnnOf w))
  | 0x3 => .ok (.se (xOf w) (kkOf w))
  | 0x4 => .ok (.sne (xOf w) (kkOf w))
  | 0x5 => decodeGroup5 w
  | 0x6 => .ok (.ld (xOf w) (kkOf w))
  | 0x7 => .ok (.add (xOf w) (kkOf w))
  | 0x8 => decodeGroup8 w
  | 0x9 => decodeGroup9 w
  | 0xA => .ok (.ldI (nnnOf w))
  | 0xB => .ok (.jpV0 (nnnOf w))
  | 0xC => .ok (.rnd (xOf w) (kkOf w))
  | 0xD => .ok (.drw (xOf w) (yOf w) (nOf w))
  | 0xE => decodeGroupE w
  | _ => decodeGroupF w

/-! ### Bytes (20_memory.md R43) -/

/-- The word whose high byte is at the lower address (20_memory.md R43). -/
def wordOfBytes (hi lo : Byte) : Word := hi ++ lo

/-- The high byte of a word, stored at the lower address (20_memory.md R43). -/
def hiByte (w : Word) : Byte := w.extractLsb' 8 8

/-- The low byte of a word, stored at the higher address (20_memory.md R43). -/
def loByte (w : Word) : Byte := w.extractLsb' 0 8

/-- Decode the first instruction of a byte string and give the rest back. -/
def decodeBytes : List Byte → Except DecodeError (Instr × List Byte)
  | hi :: lo :: rest =>
    match decode (wordOfBytes hi lo) with
    | .ok i => .ok (i, rest)
    | .error e => .error e
  | _ => .error .truncated

/-! ### The encoder -/

/-- A register index or a count as the nibble that encodes it. -/
def idxNibble (r : Fin 16) : BitVec 4 := BitVec.ofFin r

/-- A word of form A: op-group and `nnn` (30_encoding.md R61). -/
def formA (op : BitVec 4) (nnn : Addr12) : Word := op ++ nnn

/-- A word of form I: op-group, `x`, `kk` (30_encoding.md R61). -/
def formI (op : BitVec 4) (x : RegIdx) (kk : Byte) : Word := op ++ idxNibble x ++ kk

/-- A word of form R or S: op-group, `x`, `y`, low nibble (30_encoding.md R61). -/
def formR (op : BitVec 4) (x y : RegIdx) (n : BitVec 4) : Word := op ++ idxNibble x ++ idxNibble y ++ n

/-- The word of an instruction (30_encoding.md R66). -/
def encode : Instr → Word
  | .cls => 0x00E0
  | .ret => 0x00EE
  | .jp nnn => formA 0x1 nnn
  | .call nnn => formA 0x2 nnn
  | .se x kk => formI 0x3 x kk
  | .sne x kk => formI 0x4 x kk
  | .seReg x y => formR 0x5 x y 0x0
  | .ld x kk => formI 0x6 x kk
  | .add x kk => formI 0x7 x kk
  | .ldReg x y => formR 0x8 x y 0x0
  | .or x y => formR 0x8 x y 0x1
  | .and x y => formR 0x8 x y 0x2
  | .xor x y => formR 0x8 x y 0x3
  | .addReg x y => formR 0x8 x y 0x4
  | .sub x y => formR 0x8 x y 0x5
  | .shr x y => formR 0x8 x y 0x6
  | .subn x y => formR 0x8 x y 0x7
  | .shl x y => formR 0x8 x y 0xE
  | .sneReg x y => formR 0x9 x y 0x0
  | .ldI nnn => formA 0xA nnn
  | .jpV0 nnn => formA 0xB nnn
  | .rnd x kk => formI 0xC x kk
  | .drw x y n => formR 0xD x y (idxNibble n)

/-- The bytes of an instruction as memory holds them, high byte first (20_memory.md R43). -/
def encodeBytes (i : Instr) : List Byte := [hiByte (encode i), loByte (encode i)]

/-- The word whose low `nbits` bits are those of `w`, every bit above them 0. -/
def tableWord (nbits w : Nat) : Word := BitVec.ofNat 16 (w % 2 ^ nbits)

/-- What the decoder reads from an instruction whose bits, numbered as spec/opcode_table.json numbers them, are `w`:
the word is laid out high byte first and given to `decodeBytes`. -/
def decodeTableWord (nbits w : Nat) : Option Instr :=
  match decodeBytes [hiByte (tableWord nbits w), loByte (tableWord nbits w)] with
  | .ok (i, _) => some i
  | .error _ => none

end Sys2Proof
end

