-- ==== Sys2Proof/Config.lean ====
section
/-! DEFINITION. The constants the spec fixes (00_scope.md R5), the defaults of its open parameters (R6), and the two
free values of the machine: the random byte and what a pixel outside the grid reads as. -/

namespace Sys2Proof.Config

/-- `MEM_SIZE`: bytes of memory, addresses 0x000 to 0xFFF (00_scope.md R5). -/
abbrev memSize : Nat := 4096

/-- `FONT_BASE` (00_scope.md R5). -/
abbrev fontBase : Nat := 0x000

/-- `FONT_LEN`: 16 glyphs of 5 bytes (00_scope.md R5). -/
abbrev fontLen : Nat := 80

/-- `PROG_BASE`: the first byte of the program and the reset value of PC (00_scope.md R5). -/
abbrev progBase : Nat := 0x200

/-- `PROG_MAX` = 4096 - 512: the largest program image in bytes (00_scope.md R5). -/
abbrev progMax : Nat := 3584

/-- `STACK_DEPTH` (00_scope.md R5). -/
abbrev stackDepth : Nat := 16

/-- `FB_W`: columns of the framebuffer (00_scope.md R5). -/
abbrev fbW : Nat := 64

/-- `FB_H`: rows of the framebuffer (00_scope.md R5). -/
abbrev fbH : Nat := 32

/-- The default of the parameter `FONT`, glyphs 0 to 7 (70_reset_and_hazards.md R194; PRESUMED, log 5). -/
def fontLow : List Byte :=
  [0xF0, 0x90, 0x90, 0x90, 0xF0] ++ [0x20, 0x60, 0x20, 0x20, 0x70] ++
  [0xF0, 0x10, 0xF0, 0x80, 0xF0] ++ [0xF0, 0x10, 0xF0, 0x10, 0xF0] ++
  [0x90, 0x90, 0xF0, 0x10, 0x10] ++ [0xF0, 0x80, 0xF0, 0x10, 0xF0] ++
  [0xF0, 0x80, 0xF0, 0x90, 0xF0] ++ [0xF0, 0x10, 0x20, 0x40, 0x40]

/-- The default of the parameter `FONT`, glyphs 8 to F (70_reset_and_hazards.md R194; PRESUMED, log 5). -/
def fontHigh : List Byte :=
  [0xF0, 0x90, 0xF0, 0x90, 0xF0] ++ [0xF0, 0x90, 0xF0, 0x10, 0xF0] ++
  [0xF0, 0x90, 0xF0, 0x90, 0x90] ++ [0xE0, 0x90, 0xE0, 0x90, 0xE0] ++
  [0xF0, 0x80, 0x80, 0x80, 0xF0] ++ [0xE0, 0x90, 0x90, 0x90, 0xE0] ++
  [0xF0, 0x80, 0xF0, 0x80, 0xF0] ++ [0xF0, 0x80, 0xF0, 0x80, 0x80]

/-- The default of the parameter `FONT` (00_scope.md R6, 70_reset_and_hazards.md R194). PRESUMED (the spec gives these
bytes from general knowledge), log 5; unsafe for a claim about the pixels of a sprite below 0x050. -/
def defaultFont : List Byte := fontLow ++ fontHigh

/-- The default of `display_open` on a frame for which no level is listed (00_scope.md R6). DESIGN CHOICE, log 8. -/
abbrev displayOpenDefault : Bool := true

/-- FREE VALUE: the byte on the `rnd` port at the `k`-th draw, when the host's schedule lists none
(42_load_imm.md R104: any value, under no law). Log 9. -/
opaque rnd : Nat → Byte

/-- FREE VALUE: what `get_pixel(x, y)` returns outside the 64 x 32 grid (60_exceptions.md R168,
93_implementation_defined.md U6). Never exercised by the core. Log 19. -/
opaque pixelOutside : Nat → Nat → Bool

end Sys2Proof.Config
end

