-- ==== Sys2Proof/Machine/State.lean ====
section
/-! DEFINITION. The state of the whole block (10_state.md R10 to R28), the reasons a step can stop, and the state after
reset. Everything the spec gives the machine is here, and the model's own fields for the ports of 00_scope.md R7. -/

namespace Sys2Proof.Machine

/-- `run_state` (10_state.md R24, 60_exceptions.md R156). Only `running` takes steps. -/
inductive RunState where
  | running
  | stopped
  | faulted
  | loadFailed
deriving DecidableEq, Repr, Inhabited

/-- The four faults of the core (60_exceptions.md R150). They are not reasons for the model to stop: raising one is a
next state (R153), by `Sys2Proof.Machine.raise`. -/
inductive Exn where
  /-- The fetched word matches no instruction; carries the word. -/
  | unknownOpcode (w : Word)
  /-- CALL with all 16 stack entries in use. -/
  | stackOverflow
  /-- RET with the stack empty. -/
  | stackUnderflow
  /-- A fetch or a sprite read would touch an address above 0xFFF; carries the lowest such address. -/
  | addressOutOfRange (a : Word)
deriving DecidableEq, Repr

/-- A pixel of the grid as the Display ports carry it: a 6-bit column and a 5-bit row (00_scope.md R7). -/
structure Pixel where
  px : Fin 64
  py : Fin 32
deriving DecidableEq, Repr

/-- One use of an output port (00_scope.md R7): the calls the core makes on the Display and the Beeper. -/
inductive PortPulse where
  /-- `disp_clear` (60_exceptions.md R167). -/
  | dispClear
  /-- `disp_get(x, y)` and the bit the Display replied (60_exceptions.md R168). -/
  | dispGet (p : Pixel) (reply : Bool)
  /-- `disp_set(x, y, on)` (60_exceptions.md R169). -/
  | dispSet (p : Pixel) (on : Bool)
  /-- `disp_present` (60_exceptions.md R170). -/
  | dispPresent
  /-- `beep_start` (60_exceptions.md R165). -/
  | beepStart
  /-- `beep_stop` (60_exceptions.md R165). -/
  | beepStop
deriving DecidableEq, Repr

/-- Memory: cells in canonical form; an unlisted cell reads as `Sys2Proof.Machine.resetByte` (20_memory.md R40, R42). -/
abbrev Memory := List Host.Cell

/-- The Display's framebuffer, row `py` at index `py`, pixel `px` of a row in bit `px` (10_state.md R26; which bit holds
which column is the model's own choice and no rule depends on it, log 25). -/
abbrev Framebuffer := Vector (BitVec 64) 32

/-- The state. Between steps it is the state between two frames. -/
structure State where
  /-- `V[0]`..`V[15]` (R10). -/
  v : Vector Byte 16
  /-- `I` (R14). -/
  i : Word
  /-- `PC` (R16). -/
  pc : Word
  /-- `SP`: the number of valid stack entries, 0..16 (R20). -/
  sp : Fin 17
  /-- `STACK[0..15]` (R19). -/
  stack : Vector Word 16
  /-- `DT`, the delay timer (R21). -/
  dt : Byte
  /-- `ST`, the sound timer (R22). -/
  st : Byte
  /-- `tone`: what the block has told the Beeper (R23). -/
  tone : Bool
  /-- `run_state` (R24). -/
  runState : RunState
  /-- `fault_code` (R25). -/
  faultCode : BitVec 3
  /-- `fault_info` (R25). -/
  faultInfo : Word
  /-- `MEM[0..4095]` (20_memory.md R40). -/
  mem : Memory
  /-- `FB`, owned by the Display (R26). -/
  fb : Framebuffer
  /-- MODEL'S OWN: the port pulses of the latest frame, oldest first (00_scope.md R7; log 10). -/
  pulses : List PortPulse
  /-- MODEL'S OWN: the levels the host puts on `display_open`, next frame first (00_scope.md R6; log 8). -/
  displayOpenIn : List Bool
  /-- MODEL'S OWN: the bytes the host puts on `rnd`, next draw first (00_scope.md R6; log 9). -/
  rndIn : List Byte
  /-- MODEL'S OWN: the number of draws made, the index of the next free draw (log 9). -/
  draws : Nat
deriving DecidableEq, Repr, Inhabited

/-- Reasons a step stops the model with a fault. NONE: every fault the spec describes has a described entry
(60_exceptions.md R153) and is a next state, and the spec leaves no legal instruction without an effect. Log 2, safe. -/
inductive Fault
deriving DecidableEq, Repr

/-- Reasons the model refuses. -/
inductive Refusal where
  /-- Raised by `exec` alone, for an instruction that has no meaning yet; no arm raises it now. Safe. -/
  | notModelled (mnemonic : String)
deriving DecidableEq, Repr

/-- The machine right after reset (10_state.md R28) with the default parameters of 00_scope.md R6, no program placed
and every pixel off. The zeros of `V`, `I`, `SP`, `STACK` are the spec's decision D3 (log 3), the timers' D4 (log 4),
`tone`'s D6 (log 7); the blank `fb` is DESIGN CHOICE, the spec gives none (log 6). `mem` lists nothing: an unlisted cell
reads as the reset image (log 26). `Sys2Proof.Machine.boot` is reset under any parameters. -/
def State.reset : State where
  v := Vector.replicate 16 0
  i := 0x0000
  pc := 0x0200
  sp := 0
  stack := Vector.replicate 16 0
  dt := 0
  st := 0
  tone := false
  runState := .running
  faultCode := 0
  faultInfo := 0x0000
  mem := []
  fb := Vector.replicate 32 0
  pulses := []
  displayOpenIn := []
  rndIn := []
  draws := 0

end Sys2Proof.Machine
end

