-- ==== Sys2Proof/Machine/Ops.lean ====
section
/-! DEFINITION. The named operations over the state: registers, the program counter, the call stack, memory, the ports
and the contracts of the Display and the Beeper, the host's inputs, and raising a fault. Every meaning is written over
these and nothing else touches the state's fields. -/

namespace Sys2Proof.Machine

/-! ### Memory cells (20_memory.md R40, R42, R45) -/

/-- What an unlisted cell reads as: the image the loader builds from the default font and an empty program
(70_reset_and_hazards.md R192, R194). Log 26. -/
def resetByte (a : Nat) : Byte := if a < Config.fontLen then Config.defaultFont.getD a 0 else 0

/-- `MEM[a]`: reading has no side effect (20_memory.md R45). -/
def readCell : Memory → Nat → Byte
  | [], a => resetByte a
  | (k, b) :: m, a => if k = a then b else readCell m a

/-- Write one cell and keep the canonical form: addresses strictly rising, no cell equal to what an unlisted one reads as.
Only the loader writes memory; no instruction does (20_memory.md R48). -/
def writeCell : Memory → Nat → Byte → Memory
  | [], a, b => if b = resetByte a then [] else [(a, b)]
  | (k, c) :: m, a, b =>
    if a < k then (if b = resetByte a then (k, c) :: m else (a, b) :: (k, c) :: m)
    else if a = k then (if b = resetByte a then m else (a, b) :: m)
    else (k, c) :: writeCell m a b

/-- The cells from `lo` on are in canonical form. -/
def wfFrom : Nat → Memory → Bool
  | _, [] => true
  | lo, (k, b) :: m => decide (lo ≤ k) && decide (k < Config.memSize) && decide (b ≠ resetByte k) && wfFrom (k + 1) m

/-- The canonical form of memory. -/
def Memory.wf (m : Memory) : Bool := wfFrom 0 m

/-- Write a run of bytes from `a` upwards. -/
def storeBytes (m : Memory) (a : Nat) : List Byte → Memory
  | [] => m
  | b :: bs => storeBytes (writeCell m a b) (a + 1) bs

/-! ### `MemRead` (00_scope.md R9, 20_memory.md R46) -/

/-- The lowest address above 0xFFF among those an out-of-range access from `addr` would touch (20_memory.md R46). -/
def firstBadAddr (addr : Word) : Word := if addr.toNat < Config.memSize then 0x1000 else addr

/-- `MemRead(addr, 1)`. -/
def memRead1 (s : State) (addr : Word) : Except Exn Byte :=
  if addr.toNat < Config.memSize then .ok (readCell s.mem addr.toNat)
  else .error (.addressOutOfRange (firstBadAddr addr))

/-- `MemRead(addr, 2)`: two byte reads, high byte at the lower address (20_memory.md R43); addresses never wrap. -/
def memRead2 (s : State) (addr : Word) : Except Exn Word :=
  if addr.toNat + 1 < Config.memSize then
    .ok (wordOfBytes (readCell s.mem addr.toNat) (readCell s.mem (addr.toNat + 1)))
  else .error (.addressOutOfRange (firstBadAddr addr))

/-- The instruction fetch: `MemRead(PC, 2)` (30_encoding.md R63). -/
def fetch (s : State) : Except Exn Word := memRead2 s s.pc

/-! ### General registers, `I` and `PC` -/

/-- `V[x]` (10_state.md R10: no register is hard-wired). -/
def readV (s : State) (x : RegIdx) : Byte := s.v[x]

/-- `V[x] <- b`. -/
def writeV (x : RegIdx) (b : Byte) (s : State) : State := { s with v := s.v.set x b }

/-- `I <- a` (10_state.md R14). -/
def setI (a : Word) (s : State) : State := { s with i := a }

/-- `PC <- target`; a target is never checked (40_flow.md R84). -/
def setPc (target : Word) (s : State) : State := { s with pc := target }

/-- `PC <- (pc0 + 2) mod 65536`: the sequential class of 10_state.md R17. -/
def advance (s : State) : State := setPc (s.pc + 2) s

/-- `PC <- (pc0 + 4) mod 65536` if the condition holds, else `(pc0 + 2) mod 65536` (10_state.md R17, 41_skip.md R94). -/
def skipIf (cond : Bool) (s : State) : State := setPc (s.pc + (if cond then 4 else 2)) s

/-! ### The call stack (10_state.md R19, R20) -/

/-- Push: `StackOverflow` when 16 entries are in use, else `STACK[SP] <- value; SP <- SP + 1`. -/
def push (value : Word) (s : State) : Except Exn State :=
  if h : s.sp.val < Config.stackDepth then
    .ok { s with stack := s.stack.set s.sp.val value h, sp := ⟨s.sp.val + 1, Nat.succ_lt_succ h⟩ }
  else .error .stackOverflow

/-- Pop: `StackUnderflow` when the stack is empty, else `SP <- SP - 1` and the entry at the new SP; the entry's bits stay
(10_state.md R20, log 14). -/
def pop (s : State) : Except Exn (Word × State) :=
  if h : s.sp.val = 0 then .error .stackUnderflow
  else
    .ok (s.stack[s.sp.val - 1]'(by have := s.sp.isLt; omega),
      { s with sp := ⟨s.sp.val - 1, by have := s.sp.isLt; omega⟩ })

/-! ### Faults (60_exceptions.md R151, R153) -/

/-- `fault_code` of a fault (60_exceptions.md R151). -/
def faultCodeOf : Exn → BitVec 3
  | .unknownOpcode _ => 1
  | .stackOverflow => 2
  | .stackUnderflow => 3
  | .addressOutOfRange _ => 4

/-- `fault_info` of a fault (60_exceptions.md R151). -/
def faultInfoOf : Exn → Word
  | .unknownOpcode w => w
  | .stackOverflow => 0x0000
  | .stackUnderflow => 0x0000
  | .addressOutOfRange a => a

/-- TAKING AN EXCEPTION: the latches and `run_state`, and nothing else (60_exceptions.md R153). There is no vector, no
saved PC and no return from it (R155): `Faulted` is absorbing until reset. -/
def raise (e : Exn) (s : State) : State :=
  { s with runState := .faulted, faultCode := faultCodeOf e, faultInfo := faultInfoOf e }

/-! ### Ports -/

/-- The core uses output ports, in this order (20_memory.md R53). -/
def emit (ps : List PortPulse) (s : State) : State := { s with pulses := s.pulses ++ ps }

/-- A frame begins: no port has been used in it yet. -/
def beginFrame (s : State) : State := { s with pulses := [] }

/-- The present request of CLS and DRW: one `disp_present`; the Display's result is ignored and no state changes
(44_display.md R133, 60_exceptions.md R170). -/
def present (s : State) : State := emit [.dispPresent] s

/-- A Beeper command and the block's record of it (60_exceptions.md R163, R165, 10_state.md R23). -/
def beep (on : Bool) (s : State) : State :=
  emit [if on then .beepStart else .beepStop] { s with tone := on }

/-! ### The Display's contract (60_exceptions.md R167 to R169) -/

/-- `get_pixel(x, y)`: `FB[y][x]` inside the grid; outside, a free value (60_exceptions.md R168, log 19). -/
def getPixel (fb : Framebuffer) (x y : Nat) : Bool :=
  if h : x < Config.fbW ∧ y < Config.fbH then (fb[y]'h.2).getLsbD x else Config.pixelOutside x y

/-- A framebuffer row with one pixel set to `on`. -/
def rowWith (row : BitVec 64) (x : Nat) (on : Bool) : BitVec 64 :=
  if on then row ||| BitVec.twoPow 64 x else row &&& ~~~(BitVec.twoPow 64 x)

/-- `set_pixel(x, y, on)`: `FB[y][x] <- on` inside the grid; outside nothing happens (60_exceptions.md R169). -/
def setPixel (fb : Framebuffer) (x y : Nat) (on : Bool) : Framebuffer :=
  if h : x < Config.fbW ∧ y < Config.fbH then fb.set y (rowWith (fb[y]'h.2) x on) h.2 else fb

/-- `clear()`: every pixel off (60_exceptions.md R167). -/
def clearedFb : Framebuffer := Vector.replicate 32 0

/-- The core issues `disp_clear` and the Display clears. -/
def dispClear (s : State) : State := emit [.dispClear] { s with fb := clearedFb }

/-- The Display now holds `fb`, after the calls `ps`. -/
def setFb (fb : Framebuffer) (ps : List PortPulse) (s : State) : State := emit ps { s with fb := fb }

/-! ### The host's inputs -/

/-- `Draw8()`: the byte on the `rnd` port, sampled once (42_load_imm.md R104): the next byte the host's schedule lists,
else a free value. -/
def draw8 (s : State) : Byte :=
  match s.rndIn with
  | b :: _ => b
  | [] => Config.rnd s.draws

/-- The draw is used up: the next one is another (42_load_imm.md R104: independently at each execution). -/
def drawn (s : State) : State := { s with rndIn := s.rndIn.tail, draws := s.draws + 1 }

/-- The level of `display_open` on this frame: the next one the host's schedule lists, else the default 1
(00_scope.md R6). -/
def displayOpen (s : State) : Bool :=
  match s.displayOpenIn with
  | b :: _ => b
  | [] => Config.displayOpenDefault

/-- The sample is taken: the next frame samples the next level (60_exceptions.md R171). -/
def sampled (s : State) : State := { s with displayOpenIn := s.displayOpenIn.tail }

/-- `run_state <- r` (60_exceptions.md R156). -/
def setRunState (r : RunState) (s : State) : State := { s with runState := r }

/-- `DT <- d`, `ST <- t` (60_exceptions.md R163). -/
def setTimers (d t : Byte) (s : State) : State := { s with dt := d, st := t }

end Sys2Proof.Machine
end

