-- ==== Sys2Proof/Machine/Operands.lean ====
section
/-! DEFINITION. The operand forms (30_encoding.md R61, R62): immediates used as they are, `nnn` zero-extended, the indexed
target of Bnnn, and the sprite of Dxyn: which pixels its 1 bits land on (44_display.md R131, R132). -/

namespace Sys2Proof.Machine

/-- `zext_16(nnn)` (30_encoding.md R62). -/
def addrOperand (nnn : Addr12) : Word := nnn.setWidth 16

/-- `zext_16(nnn) + zext_16(V[0])`: a 16-bit sum, not reduced modulo 4096 (40_flow.md R83). -/
def indexedTarget (nnn : Addr12) (v0 : Byte) : Word := addrOperand nnn + v0.setWidth 16

/-- The pixel of row `r`, column offset `c` of a sprite at `(vx, vy)`: both coordinates wrap (44_display.md R132 point 3). -/
def spritePixel (vx vy : Byte) (r c : Nat) : Pixel :=
  { px := Fin.ofNat 64 (vx.toNat + c), py := Fin.ofNat 32 (vy.toNat + r) }

/-- The sprite bit of column offset `c` in a row byte: bit 7 is the leftmost (44_display.md R132 point 2). -/
def spriteBit (row : Byte) (c : Nat) : Bool := row.getLsbD (7 - c)

/-- The pixels of one sprite row whose bit is 1, left to right (44_display.md R131). -/
def rowPixels (vx vy : Byte) (r : Nat) (row : Byte) : List Pixel :=
  ((List.range 8).filter (spriteBit row)).map (spritePixel vx vy r)

/-- The pixels of an `n`-row sprite at `base` whose bit is 1, rows top to bottom (44_display.md R131, R132 points 1, 8). -/
def spritePixels (m : Memory) (base : Nat) (n : Nat) (vx vy : Byte) : List Pixel :=
  (List.range n).flatMap (fun r => rowPixels vx vy r (readCell m (base + r)))

/-- The sprite lies inside memory: the check of Dxyn, made once before the first read (44_display.md R131, R132 point 9,
20_memory.md R47). -/
def spriteInRange (base : Word) (n : Nat) : Bool := n == 0 || decide (base.toNat + n - 1 ≤ 0xFFF)

end Sys2Proof.Machine
end

