-- ==== Sys2Proof/Machine/Flags.lean ====
section
/-! DEFINITION. The arithmetic of the ALU and every flag computation (10_state.md R13, 43_alu.md R115 to R120). A flag is
the 8-bit number 0 or 1 (10_state.md R11). -/

namespace Sys2Proof.Machine

/-- A flag as VF holds it (10_state.md R11). -/
def flagByte (b : Bool) : Byte := if b then 1 else 0

/-- The 9-bit sum of two bytes (43_alu.md R115). -/
def exactSum (a b : Byte) : Nat := a.toNat + b.toNat

/-- `(a + b) mod 256` (42_load_imm.md R101, 43_alu.md R115). -/
def wrapAdd (a b : Byte) : Byte := BitVec.ofNat 8 (exactSum a b)

/-- The carry out of 8xy4: 1 if the exact sum exceeds 255 (43_alu.md R115). -/
def carryFlag (a b : Byte) : Byte := flagByte (decide (exactSum a b > 255))

/-- `(minuend - subtrahend) mod 256` (43_alu.md R116, R118). -/
def wrapSub (minuend subtrahend : Byte) : Byte := minuend - subtrahend

/-- The flag of 8xy5: 1 if the minuend `Vx` is strictly greater, 0 on a tie (43_alu.md R116). -/
def subFlag (a b : Byte) : Byte := flagByte (decide (a.toNat > b.toNat))

/-- The flag of 8xy7: 0 if `Vx >= Vy`, else 1 (43_alu.md R118). -/
def subnFlag (a b : Byte) : Byte := flagByte (!decide (a.toNat ≥ b.toNat))

/-- `a >> 1`, a zero enters at the top (43_alu.md R117). -/
def shiftRight1 (a : Byte) : Byte := a >>> 1

/-- The flag of 8xy6: bit 0 before the shift (43_alu.md R117). -/
def shrFlag (a : Byte) : Byte := flagByte (a.getLsbD 0)

/-- `(a << 1) mod 256` (43_alu.md R119). -/
def shiftLeft1 (a : Byte) : Byte := a <<< 1

/-- The flag of 8xyE: bit 7 before the shift, the shift's own bit (43_alu.md R119). -/
def shlFlag (a : Byte) : Byte := flagByte (a.getLsbD 7)

/-- A counter of the tick: minus one while nonzero, never wrapping (60_exceptions.md R163, 43_alu.md R120). -/
def countDown (c : Byte) : Byte := if c = 0 then 0 else c - 1

end Sys2Proof.Machine
end

