-- ==== Sys2Proof/Machine/Alu.lean ====
section
/-! DEFINITION. The meanings of op-group 8 (43_alu.md R110 to R121). Operands are read before the first write, writes are
made in the rule's order, and the last write to a register is what remains (R110; spec decision D13, log 13). -/

namespace Sys2Proof.Machine

/-- The step answers this next state. -/
def done (s : State) : Host.Outcome State Fault Refusal := .next s

/-- A result and no flag: `V[d] <- r; PC <- pc0 + 2` (10_state.md R12, R17). -/
def writeResult (d : RegIdx) (r : Byte) (s : State) : State := advance (writeV d r s)

/-- The result, then the flag: the order of 8xy4 (10_state.md R12). -/
def writeResultThenFlag (d : RegIdx) (r flag : Byte) (s : State) : State := advance (writeV vF flag (writeV d r s))

/-- The flag, then the result: the order of 8xy5, 8xy6, 8xy7, 8xyE (10_state.md R12). -/
def writeFlagThenResult (d : RegIdx) (r flag : Byte) (s : State) : State := advance (writeV d r (writeV vF flag s))

/-- 8xy0 LD Vx, Vy (43_alu.md R111). -/
def execLdReg (x y : RegIdx) (s : State) : Host.Outcome State Fault Refusal :=
  done (writeResult x (readV s y) s)

/-- 8xy1 OR Vx, Vy; VF is not written (43_alu.md R112). -/
def execOr (x y : RegIdx) (s : State) : Host.Outcome State Fault Refusal :=
  done (writeResult x (readV s x ||| readV s y) s)

/-- 8xy2 AND Vx, Vy; VF is not written (43_alu.md R113). -/
def execAnd (x y : RegIdx) (s : State) : Host.Outcome State Fault Refusal :=
  done (writeResult x (readV s x &&& readV s y) s)

/-- 8xy3 XOR Vx, Vy; VF is not written (43_alu.md R114). -/
def execXor (x y : RegIdx) (s : State) : Host.Outcome State Fault Refusal :=
  done (writeResult x (readV s x ^^^ readV s y) s)

/-- 8xy4 ADD Vx, Vy: the sum, then the carry (43_alu.md R115). -/
def execAddReg (x y : RegIdx) (s : State) : Host.Outcome State Fault Refusal :=
  done (writeResultThenFlag x (wrapAdd (readV s x) (readV s y)) (carryFlag (readV s x) (readV s y)) s)

/-- 8xy5 SUB Vx, Vy: the flag, then the difference (43_alu.md R116). -/
def execSub (x y : RegIdx) (s : State) : Host.Outcome State Fault Refusal :=
  done (writeFlagThenResult x (wrapSub (readV s x) (readV s y)) (subFlag (readV s x) (readV s y)) s)

/-- 8xy6 SHR Vx: the flag, then the shift; `y` is ignored (43_alu.md R117, 30_encoding.md R69). -/
def execShr (x : RegIdx) (s : State) : Host.Outcome State Fault Refusal :=
  done (writeFlagThenResult x (shiftRight1 (readV s x)) (shrFlag (readV s x)) s)

/-- 8xy7 SUBN Vx, Vy: the flag, then the difference into **Vy**; Vx is not written (43_alu.md R118). -/
def execSubn (x y : RegIdx) (s : State) : Host.Outcome State Fault Refusal :=
  done (writeFlagThenResult y (wrapSub (readV s y) (readV s x)) (subnFlag (readV s x) (readV s y)) s)

/-- 8xyE SHL Vx: the flag, then the shift; `y` is ignored (43_alu.md R119, 30_encoding.md R69). -/
def execShl (x : RegIdx) (s : State) : Host.Outcome State Fault Refusal :=
  done (writeFlagThenResult x (shiftLeft1 (readV s x)) (shlFlag (readV s x)) s)

end Sys2Proof.Machine
end

