-- ==== Sys2Proof/Machine/Display.lean ====
section
/-! DEFINITION. The meanings of the display instructions 00E0 and Dxyn (44_display.md R130 to R133). -/

namespace Sys2Proof.Machine

/-- What a blit leaves: the framebuffer, whether a pixel went from on to off, and the Display calls made. -/
structure Blit where
  fb : Framebuffer
  hit : Bool
  calls : List PortPulse
deriving DecidableEq, Repr

/-- Invert the listed pixels one after the other: for each one `disp_get`, then `disp_set` of the inverted bit
(44_display.md R131, R132 points 4, 5, 8). -/
def xorBlit : List Pixel → Framebuffer → Blit
  | [], fb => { fb := fb, hit := false, calls := [] }
  | p :: ps, fb =>
    let old := getPixel fb p.px.val p.py.val
    let rest := xorBlit ps (setPixel fb p.px.val p.py.val (!old))
    { fb := rest.fb, hit := old || rest.hit, calls := .dispGet p old :: .dispSet p (!old) :: rest.calls }

/-- 00E0 CLS: clear, advance, present (44_display.md R130, R133). -/
def execCls (s : State) : Host.Outcome State Fault Refusal :=
  done (present (advance (dispClear s)))

/-- The effect of a DRW whose sprite is in range: `Vx`, `Vy` and `I` are read first, VF is written last, then PC and the
present (44_display.md R131, R133). -/
def drawSprite (x y : RegIdx) (n : Nat) (s : State) : State :=
  let blit := xorBlit (spritePixels s.mem s.i.toNat n (readV s x) (readV s y)) s.fb
  present (advance (writeV vF (flagByte blit.hit) (setFb blit.fb blit.calls s)))

/-- Dxyn DRW Vx, Vy, n: the range check before any effect, then the blit (44_display.md R131; 20_memory.md R47: the
recorded address is always 0x1000, log 12). -/
def execDrw (x y : RegIdx) (n : Fin 16) (s : State) : Host.Outcome State Fault Refusal :=
  if spriteInRange s.i n.val then done (drawSprite x y n.val s)
  else done (raise (.addressOutOfRange 0x1000) s)

end Sys2Proof.Machine
end

