-- ==== Sys2Proof/Machine/Flow.lean ====
section
/-! DEFINITION. The meanings of the control transfers 00EE, 1nnn, 2nnn, Bnnn (40_flow.md R80 to R85). A target is never
checked; the next fetch checks it (R84). -/

namespace Sys2Proof.Machine

/-- 00EE RET: pop into PC, or raise `StackUnderflow` with nothing else changed (40_flow.md R80). -/
def execRet (s : State) : Host.Outcome State Fault Refusal :=
  match pop s with
  | .ok (target, t) => done (setPc target t)
  | .error e => done (raise e s)

/-- 1nnn JP nnn (40_flow.md R81). -/
def execJp (nnn : Addr12) (s : State) : Host.Outcome State Fault Refusal :=
  done (setPc (addrOperand nnn) s)

/-- 2nnn CALL nnn: push `pc0 + 2` and jump, or raise `StackOverflow` with nothing else changed (40_flow.md R82). -/
def execCall (nnn : Addr12) (s : State) : Host.Outcome State Fault Refusal :=
  match push (s.pc + 2) s with
  | .ok t => done (setPc (addrOperand nnn) t)
  | .error e => done (raise e s)

/-- Bnnn JP V0, nnn (40_flow.md R83). -/
def execJpV0 (nnn : Addr12) (s : State) : Host.Outcome State Fault Refusal :=
  done (setPc (indexedTarget nnn (readV s 0)) s)

end Sys2Proof.Machine
end

