-- ==== Sys2Proof/Machine/LoadImm.lean ====
section
/-! DEFINITION. The meanings of the immediate instructions 6xkk, 7xkk, Annn, Cxkk (42_load_imm.md R100 to R104). -/

namespace Sys2Proof.Machine

/-- 6xkk LD Vx, kk (42_load_imm.md R100). -/
def execLd (x : RegIdx) (kk : Byte) (s : State) : Host.Outcome State Fault Refusal :=
  done (writeResult x kk s)

/-- 7xkk ADD Vx, kk: wraps, no flag (42_load_imm.md R101). -/
def execAdd (x : RegIdx) (kk : Byte) (s : State) : Host.Outcome State Fault Refusal :=
  done (writeResult x (wrapAdd (readV s x) kk) s)

/-- Annn LD I, nnn (42_load_imm.md R102). -/
def execLdI (nnn : Addr12) (s : State) : Host.Outcome State Fault Refusal :=
  done (advance (setI (addrOperand nnn) s))

/-- Cxkk RND Vx, kk: the draw, sampled once, masked (42_load_imm.md R104; the draw is free, log 9). -/
def execRnd (x : RegIdx) (kk : Byte) (s : State) : Host.Outcome State Fault Refusal :=
  done (writeResult x (draw8 s &&& kk) (drawn s))

end Sys2Proof.Machine
end

