-- ==== Sys2Proof/Machine/Skip.lean ====
section
/-! DEFINITION. The meanings of the conditional skips 3xkk, 4xkk, 5xy0, 9xy0 (41_skip.md R90 to R94). -/

namespace Sys2Proof.Machine

/-- 3xkk SE Vx, kk (41_skip.md R90). -/
def execSe (x : RegIdx) (kk : Byte) (s : State) : Host.Outcome State Fault Refusal :=
  done (skipIf (readV s x == kk) s)

/-- 4xkk SNE Vx, kk (41_skip.md R91). -/
def execSne (x : RegIdx) (kk : Byte) (s : State) : Host.Outcome State Fault Refusal :=
  done (skipIf (readV s x != kk) s)

/-- 5xy0 SE Vx, Vy (41_skip.md R92). -/
def execSeReg (x y : RegIdx) (s : State) : Host.Outcome State Fault Refusal :=
  done (skipIf (readV s x == readV s y) s)

/-- 9xy0 SNE Vx, Vy (41_skip.md R93). -/
def execSneReg (x y : RegIdx) (s : State) : Host.Outcome State Fault Refusal :=
  done (skipIf (readV s x != readV s y) s)

end Sys2Proof.Machine
end

