-- ==== Sys2Proof/Machine/Timer.lean ====
section
/-! DEFINITION. The step of the timer/sound-tone coordinator (60_exceptions.md R163). -/

namespace Sys2Proof.Machine

/-- `tick`: both tests of `ST` use its value at the start, so exactly one Beeper command is issued: `stop` if `ST` was 0,
`start` otherwise; a counter at 0 stays at 0 (60_exceptions.md R163; spec decision D28, log 21). -/
def tick (s : State) : State :=
  beep (s.st != 0) (setTimers (countDown s.dt) (countDown s.st) s)

end Sys2Proof.Machine
end

