-- ==== Sys2Proof/Machine/Frame.lean ====
section
/-! DEFINITION. One CPU step and one frame of the sequencer (30_encoding.md R63, 60_exceptions.md R156, R171, R172). -/

namespace Sys2Proof.Machine

/-- One CPU step: fetch, decode, execute; the first failing check raises its fault (30_encoding.md R63,
60_exceptions.md R154). -/
def cpuStep (s : State) : Host.Outcome State Fault Refusal :=
  match fetch s with
  | .error e => .next (raise e s)
  | .ok w =>
    match decode w with
    | .error _ => .next (raise (.unknownOpcode w) s)
    | .ok i => exec i s

/-- The state in which a frame's CPU step runs: the sample of `display_open` is taken, no port had been used before, and
the tick is complete (60_exceptions.md R172). -/
def afterTick (s : State) : State := tick (sampled (beginFrame s))

/-- One `frame_en` pulse. While Running: sample `display_open`; if it is 0 stop, doing nothing more; else one tick, then
one CPU step (60_exceptions.md R171, R172). In any other run state nothing happens (R156). -/
def frame (s : State) : Host.Outcome State Fault Refusal :=
  match s.runState with
  | .running =>
    if displayOpen s then cpuStep (afterTick s)
    else .next (setRunState .stopped (sampled (beginFrame s)))
  | .stopped => .next (beginFrame s)
  | .faulted => .next (beginFrame s)
  | .loadFailed => .next (beginFrame s)

/-- Where the next frame fetches: PC, or the program base when PC is outside memory and no fetch can succeed. Used only to
place an instruction word (log 24). -/
def placeAddr (s : State) : Word := if s.pc.toNat + 1 < Config.memSize then s.pc else 0x0200

/-- The host's schedule of `display_open` with the next level raised to 1 if it lists a 0 (log 24). -/
def openNext : List Bool → List Bool
  | [] => []
  | _ :: rest => true :: rest

/-- `s` with the word `w` stored high byte first where the next frame fetches it, Running, and the Display open on that
frame (20_memory.md R43; log 23, 24). -/
def placeWord (w : Word) (s : State) : State :=
  { s with
    pc := placeAddr s
    runState := .running
    displayOpenIn := openNext s.displayOpenIn
    mem := storeBytes s.mem (placeAddr s).toNat [hiByte w, loByte w] }

end Sys2Proof.Machine
end

