-- ==== Sys2Proof/Machine/Step.lean ====
section
/-! DEFINITION. The step of the machine: one frame pulse (60_exceptions.md R172; log 1). -/

namespace Sys2Proof.Machine

/-- One step is one `frame_en` pulse. -/
def step (s : State) : Host.Outcome State Fault Refusal := frame s

/-- `s` with the instruction whose bits are `w` stored where `step` fetches its next instruction, so that the next step
runs it (log 23). -/
def State.withFetchWord (s : State) (nbits w : Nat) : State := placeWord (tableWord nbits w) s

end Sys2Proof.Machine
end

