-- ==== Sys2Proof/Machine/Load.lean ====
section
/-! DEFINITION. The loader and reset under any parameters (70_reset_and_hazards.md R190 to R195, 10_state.md R28). These
are events outside the step: `reset` is an input of the block, not an instruction. -/

namespace Sys2Proof.Machine

/-- The load error (60_exceptions.md R157). -/
inductive LoadError where
  /-- The program image is longer than 3584 bytes (70_reset_and_hazards.md R193). -/
  | programTooLarge
deriving DecidableEq, Repr

/-- The default of `FONT` as the parameter's type: 80 bytes (00_scope.md R6; PRESUMED, log 5). -/
def defaultFontParam : Vector Byte 80 := ⟨Config.defaultFont.toArray, by decide⟩

/-- What the host gives around a reset (00_scope.md R6, 70_reset_and_hazards.md R211): the parameters held during reset,
the Display's framebuffer as it stands (the core's reset does not touch it, spec decision D6), and the levels and bytes
it will put on `display_open` and `rnd`. -/
structure ResetInputs where
  program : List Byte
  font : Vector Byte 80
  dtInit : Byte
  stInit : Byte
  fbInit : Framebuffer
  displayOpenIn : List Bool
  rndIn : List Byte
deriving DecidableEq, Repr

/-- The inputs of `State.reset`: no program, the default font, timers 0, every pixel off, nothing scheduled. -/
def defaultInputs : ResetInputs where
  program := []
  font := defaultFontParam
  dtInit := 0
  stInit := 0
  fbInit := clearedFb
  displayOpenIn := []
  rndIn := []

/-- A program given as big-endian words: word `j` is bytes `2j` (high) and `2j + 1` (low) (70_reset_and_hazards.md R195). -/
def programOfWords (ws : List Word) : List Byte := ws.flatMap (fun w => [hiByte w, loByte w])

/-- `build(program)`: the font at 0x000, the program at 0x200, zero elsewhere; an image over 3584 bytes is refused
(70_reset_and_hazards.md R192, R193). -/
def build (font : Vector Byte 80) (program : List Byte) : Except LoadError Memory :=
  if program.length ≤ Config.progMax then
    .ok (storeBytes (storeBytes [] Config.fontBase font.toList) Config.progBase program)
  else .error .programTooLarge

/-- FREE VALUE: the state after a failed load, of which only `run_state` and the latches have a value
(60_exceptions.md R157). Log 22. -/
opaque undefinedState : State

/-- Reset: the state when `reset` is released (70_reset_and_hazards.md R190, 10_state.md R28). -/
def boot (r : ResetInputs) : State :=
  match build r.font r.program with
  | .ok m =>
    { State.reset with
      mem := m, dt := r.dtInit, st := r.stInit, fb := r.fbInit
      displayOpenIn := r.displayOpenIn, rndIn := r.rndIn }
  | .error .programTooLarge =>
    { undefinedState with runState := .loadFailed, faultCode := 0, faultInfo := 0x0000, pulses := [] }

end Sys2Proof.Machine
end

