-- ==== Sys2Proof/Safety.lean ====
section
/-! DEFINITION. The terms the statements are written in: what an instruction keeps, what a precise fault keeps, when a
frame executes a word, the pixels a sprite covers, the machine's invariant, and a run without a fault. -/

namespace Sys2Proof.Machine

/-! ### What stays as it was -/

/-- Every general register but the listed ones reads as before. -/
def KeepsRegs (written : List RegIdx) (s t : State) : Prop := ∀ r : RegIdx, r ∉ written → readV t r = readV s r

/-- Every byte of memory reads as before (no instruction stores, 20_memory.md R48). -/
def KeepsMemory (s t : State) : Prop := ∀ a : Nat, readCell t.mem a = readCell s.mem a

/-- The timers, the tone, the run state and the fault latches, the host's Display schedule and memory: what no
instruction that completes changes. -/
structure KeepsBlock (s t : State) : Prop where
  dt : t.dt = s.dt
  st : t.st = s.st
  tone : t.tone = s.tone
  runState : t.runState = s.runState
  faultCode : t.faultCode = s.faultCode
  faultInfo : t.faultInfo = s.faultInfo
  displayOpenIn : t.displayOpenIn = s.displayOpenIn
  mem : KeepsMemory s t

/-- The call stack and its pointer. -/
structure KeepsStack (s t : State) : Prop where
  sp : t.sp = s.sp
  stack : t.stack = s.stack

/-- The framebuffer, and no use of an output port. -/
structure KeepsScreen (s t : State) : Prop where
  fb : t.fb = s.fb
  pulses : t.pulses = s.pulses

/-- No draw from the `rnd` port. -/
structure KeepsDraws (s t : State) : Prop where
  rndIn : t.rndIn = s.rndIn
  draws : t.draws = s.draws

/-- Everything but the general registers and PC. -/
structure KeepsRest (s t : State) : Prop where
  block : KeepsBlock s t
  i : t.i = s.i
  stack : KeepsStack s t
  screen : KeepsScreen s t
  draws : KeepsDraws s t

/-- Every general register, and everything but PC. -/
structure KeepsAllButPc (s t : State) : Prop where
  regs : KeepsRegs [] s t
  rest : KeepsRest s t

/-- A precise fault (60_exceptions.md R153): the run state and the latches, and nothing else. -/
structure FaultedWith (e : Exn) (s t : State) : Prop where
  runState : t.runState = .faulted
  faultCode : t.faultCode = faultCodeOf e
  faultInfo : t.faultInfo = faultInfoOf e
  pc : t.pc = s.pc
  regs : KeepsRegs [] s t
  i : t.i = s.i
  stack : KeepsStack s t
  dt : t.dt = s.dt
  st : t.st = s.st
  tone : t.tone = s.tone
  mem : KeepsMemory s t
  screen : KeepsScreen s t
  draws : KeepsDraws s t
  displayOpenIn : t.displayOpenIn = s.displayOpenIn

/-! ### When a frame executes a word -/

/-- The next frame ticks and steps: the machine is Running and `display_open` will be sampled 1 (60_exceptions.md R172). -/
structure Ready (s : State) : Prop where
  running : s.runState = .running
  isOpen : displayOpen s = true

/-- PC can be fetched from and `w` stands there, high byte first (20_memory.md R43, R46). -/
structure WordAtPc (s : State) (w : Word) : Prop where
  inRange : s.pc.toNat ≤ 0xFFE
  word : wordOfBytes (readCell s.mem s.pc.toNat) (readCell s.mem (s.pc.toNat + 1)) = w

/-- Every word of the row `(mask, bits)` of the opcode map decodes to the instruction whose operands are that word's
fields (30_encoding.md R64, R66). -/
def RowDecodes (mask bits : Word) (form : Word → Instr) : Prop :=
  ∀ w : Word, w &&& mask = bits → decode w = .ok (form w)

/-! ### The sprite of Dxyn -/

/-- Some 1 bit of the sprite of `n` rows at `base` lands on column `px`, row `py` (44_display.md R132 points 1 to 3). -/
def SpriteCovers (m : Memory) (base n : Nat) (vx vy : Byte) (px py : Nat) : Prop :=
  ∃ r c : Nat, r < n ∧ c < 8 ∧ (readCell m (base + r)).getLsbD (7 - c) = true ∧
    px = (vx.toNat + c) % 64 ∧ py = (vy.toNat + r) % 32

/-- The last byte of the sprite, if it has one, lies inside memory (44_display.md R131). -/
def SpriteFits (s : State) (n : Fin 16) : Prop := n.val = 0 ∨ s.i.toNat + n.val - 1 ≤ 0xFFF

/-! ### Which registers an instruction names (10_state.md R12) -/

/-- The column "reads" of 10_state.md R12. -/
def regsRead : Instr → List RegIdx
  | .cls => []
  | .ret => []
  | .jp _ => []
  | .call _ => []
  | .se x _ => [x]
  | .sne x _ => [x]
  | .seReg x y => [x, y]
  | .ld _ _ => []
  | .add x _ => [x]
  | .ldReg _ y => [y]
  | .or x y => [x, y]
  | .and x y => [x, y]
  | .xor x y => [x, y]
  | .addReg x y => [x, y]
  | .sub x y => [x, y]
  | .shr x _ => [x]
  | .subn x y => [x, y]
  | .shl x _ => [x]
  | .sneReg x y => [x, y]
  | .ldI _ => []
  | .jpV0 _ => [0]
  | .rnd _ _ => []
  | .drw x y _ => [x, y]

/-- The column "writes" of 10_state.md R12. -/
def regsWritten : Instr → List RegIdx
  | .cls => []
  | .ret => []
  | .jp _ => []
  | .call _ => []
  | .se _ _ => []
  | .sne _ _ => []
  | .seReg _ _ => []
  | .ld x _ => [x]
  | .add x _ => [x]
  | .ldReg x _ => [x]
  | .or x _ => [x]
  | .and x _ => [x]
  | .xor x _ => [x]
  | .addReg x _ => [x, vF]
  | .sub x _ => [vF, x]
  | .shr x _ => [vF, x]
  | .subn _ y => [vF, y]
  | .shl x _ => [vF, x]
  | .sneReg _ _ => []
  | .ldI _ => []
  | .jpV0 _ => []
  | .rnd x _ => [x]
  | .drw _ _ _ => [vF]

/-! ### The invariant -/

/-- What the spec says of every state a successful load can lead to. -/
structure State.Inv (s : State) : Prop where
  /-- Memory is in canonical form. -/
  memWf : s.mem.wf = true
  /-- `I[15:12]` is always zero (10_state.md R15). -/
  indexInMemory : s.i.toNat ≤ 0xFFF
  /-- The largest PC any instruction can leave is 0x10FE (10_state.md R17, R18). -/
  pcBound : s.pc.toNat ≤ 0x10FE
  /-- A pushed return address is at most 0x1000 (40_flow.md R82). -/
  stackBound : ∀ k : Fin 16, s.stack[k].toNat ≤ 0x1000
  /-- The latches are zero until a fault (10_state.md R25). -/
  latchesClear : s.runState ≠ .faulted → s.faultCode = 0 ∧ s.faultInfo = 0
  /-- After a fault the latches hold a row of 60_exceptions.md R151. -/
  latchesSet : s.runState = .faulted → ∃ e : Exn, s.faultCode = faultCodeOf e ∧ s.faultInfo = faultInfoOf e
  /-- The recorded address of an `AddressOutOfRange` lies above memory (60_exceptions.md R151). -/
  badAddress : s.faultCode = 4 → 0xFFF < s.faultInfo.toNat

/-! ### Runs -/

/-- `k` frames from `s` end in `t` with the machine still Running: every one of them ticked and executed an instruction
without a fault, and the Display stayed open (60_exceptions.md R156). -/
def RunsClean (k : Nat) (s t : State) : Prop := Sys2Proof.core.run k s = .next t ∧ t.runState = .running

/-- The Beeper commands among port pulses. -/
def beeperCommands (ps : List PortPulse) : List PortPulse :=
  ps.filter (fun p => p == .beepStart || p == .beepStop)

end Sys2Proof.Machine
end

