-- ==== Sys2Proof/Certificates/Slice0/Obligations.lean ====
section
/-! DEFINITION. The statements for the provers, each from the numbered rules of spec/. Where a clause rests on a decision
of the spec (`[decision: see 92_eei_decisions.md D<n>]`) or of this model, the docstring names it. -/

open Sys2Proof Sys2Proof.Machine

/-! ### Reset and the loader -/

/-- 10_state.md R28, 70_reset_and_hazards.md R190, R191: the state when reset is released after a successful load, for
every program, font, timer value and framebuffer. The zeros of V, I, SP, STACK, the timers' parameters, `tone` and the
latches are the spec's decisions D3, D4, D6, D15 (log 3, 4, 7, 11). -/
def Obligations.ResetLeavesSpecifiedState : Prop :=
  ∀ r : ResetInputs, r.program.length ≤ 3584 →
    (∃ m, build r.font r.program = .ok m ∧ (boot r).mem = m) ∧
    (boot r).pc = 0x0200 ∧ (∀ x : RegIdx, readV (boot r) x = 0) ∧ (boot r).i = 0 ∧
    (boot r).sp = 0 ∧ (∀ k : Fin 16, (boot r).stack[k] = 0) ∧
    (boot r).dt = r.dtInit ∧ (boot r).st = r.stInit ∧ (boot r).tone = false ∧
    (boot r).runState = .running ∧ (boot r).faultCode = 0 ∧ (boot r).faultInfo = 0 ∧
    (boot r).fb = r.fbInit

/-- The model's `State.reset` is reset under the default parameters of 00_scope.md R6, with no program and the pixels the
model chose (log 4, 5, 6, 26): it is one of the states the statement above speaks of. -/
def Obligations.ResetIsBootOfDefaults : Prop := boot defaultInputs = State.reset

/-- 70_reset_and_hazards.md R192: what `build` leaves in every cell of memory. The clause `m.wf = true`, that the memory is in
canonical form, is THE MODEL'S OWN (log 26) and no rule of the spec. -/
def Obligations.LoaderBuildsMemoryImage : Prop :=
  ∀ (font : Vector Byte 80) (program : List Byte), program.length ≤ 3584 →
    ∃ m, build font program = .ok m ∧ m.wf = true ∧
      (∀ a : Fin 80, readCell m a.val = font[a]) ∧
      (∀ a : Nat, 0x050 ≤ a → a ≤ 0x1FF → readCell m a = 0) ∧
      (∀ (k : Nat) (h : k < program.length), readCell m (0x200 + k) = program[k]) ∧
      (∀ a : Nat, 0x200 + program.length ≤ a → a ≤ 0xFFF → readCell m a = 0)

/-- 70_reset_and_hazards.md R193: the size limit is exact. That after a failed load the run state is LoadFailed and a frame
pulse does nothing is the spec's decision D24 (60_exceptions.md R156, R157; log 22). -/
def Obligations.LoaderRejectsLargeProgram : Prop :=
  (∀ (font : Vector Byte 80) (program : List Byte), 3584 < program.length →
    build font program = .error .programTooLarge) ∧
  (∀ (font : Vector Byte 80) (program : List Byte), program.length ≤ 3584 →
    ∃ m, build font program = .ok m ∧ ∀ a : Fin 80, readCell m a.val = font[a]) ∧
  (∀ r : ResetInputs, 3584 < r.program.length →
    (boot r).runState = .loadFailed ∧ step (boot r) = .next (beginFrame (boot r)))

/-- 70_reset_and_hazards.md R195 (spec decision D7, log 15): word `j` of a program given as words occupies bytes `2j` and
`2j + 1` of the image, high byte first. -/
def Obligations.WordProgramIsBigEndian : Prop :=
  ∀ (ws : List Word) (j : Nat) (h : j < ws.length),
    (programOfWords ws).length = 2 * ws.length ∧
    ∃ (h0 : 2 * j < (programOfWords ws).length) (h1 : 2 * j + 1 < (programOfWords ws).length),
      wordOfBytes (programOfWords ws)[2 * j] (programOfWords ws)[2 * j + 1] = ws[j]

/-! ### Encoding -/

/-- 30_encoding.md R61, R66: words written out bit by bit from the opcode map decode to their instructions. -/
def Obligations.SampleWordsDecode : Prop :=
  decode 0b0000000011100000 = .ok .cls ∧ decode 0b0000000011101110 = .ok .ret ∧
  decode 0b0010001100000000 = .ok (.call 0x300) ∧ decode 0b0011101000010000 = .ok (.se 0xA 0x10) ∧
  decode 0b0111101000001011 = .ok (.add 0xA 0x0B) ∧ decode 0b1000101010110111 = .ok (.subn 0xA 0xB) ∧
  decode 0b1010001000001110 = .ok (.ldI 0x20E) ∧ decode 0b1101000000010010 = .ok (.drw 0 1 2)

/-- 30_encoding.md R61, R66: decoding the word, or the bytes, of any well-formed instruction gives it back. -/
def Obligations.DecodeOfEncode : Prop :=
  ∀ i : Instr, i.wf = true →
    decode (encode i) = .ok i ∧ ∀ rest : List Byte, decodeBytes (encodeBytes i ++ rest) = .ok (i, rest)

/-- 30_encoding.md R61, R64, R69: a word that decodes is the encoding of what it decodes to, so no bit of a legal word is
dropped, the ignored field of 8xy6 and 8xyE included. -/
def Obligations.EncodeOfDecode : Prop :=
  ∀ (w : Word) (i : Instr), decode w = .ok i → encode i = w

/-- 30_encoding.md R64, R65, R66 (spec decision D10, log 17): the decision tree accepts exactly the words the opcode map
selects, and no word selects two rows. -/
def Obligations.DecoderMatchesOpcodeMap : Prop :=
  ∀ w : Word, ((∃ i, decode w = .ok i) ↔ legalWord w = true) ∧
    (opcodeTable.filter (fun r => r.selectedBy w)).length ≤ 1

/-! ### The frame and the CPU step -/

/-- 30_encoding.md R63, 60_exceptions.md R171, R172 (spec decisions D21, D27, log 21; a step is one frame pulse: log 1): when
the bytes at PC decode to `i`, the frame is a sample of `display_open`, one tick, and `exec i`; nothing else stands around
it. -/
def Obligations.StepRunsDecodedInstruction : Prop :=
  ∀ (s : State) (i : Instr) (rest : List Byte), Ready s → s.pc.toNat ≤ 0xFFE →
    decodeBytes (readCell s.mem s.pc.toNat :: readCell s.mem (s.pc.toNat + 1) :: rest) = .ok (i, rest) →
    step s = exec i (tick (sampled (beginFrame s)))

/-- THE MODEL'S CHOICE (log 2, with log 1 for what a step is): every frame pulse is answered with a next state, the core's
faults included, and nothing stops the model. The spec says what state a fault and a frame leave (60_exceptions.md R153,
R156); that the model gives it as a next state is log 2. -/
def Obligations.EveryStepAnswersNext : Prop := ∀ s : State, ∃ t, step s = .next t

/-- 20_memory.md R46, 30_encoding.md R63, 60_exceptions.md R154 (spec decisions D9, D16, log 12; the fault is precise: D15,
log 11): a fetch above 0xFFE faults with the lowest address above 0xFFF it would touch, whatever memory holds; the tick has
run. -/
def Obligations.FetchAboveMemoryFaults : Prop :=
  ∀ s : State, Ready s → 0xFFE < s.pc.toNat →
    ∃ t, step s = .next t ∧
      FaultedWith (.addressOutOfRange (if s.pc.toNat = 0xFFF then 0x1000 else s.pc)) (tick (sampled (beginFrame s))) t

/-- 45_illegal.md R140, R143, R145 with 30_encoding.md R67's other classes: executing an illegal word raises
`UnknownOpcode` with that word and changes nothing but the latches and the run state. That every `0nnn` but `00E0` and
`00EE` is illegal is the spec's decision D10 (30_encoding.md R64, log 17); that the fault is precise is D15 (60_exceptions.md
R153, log 11). -/
def Obligations.IllegalWordsFault : Prop :=
  (∀ (s : State) (w : Word), Ready s → WordAtPc s w → (∀ i, decode w ≠ .ok i) →
    ∃ t, step s = .next t ∧ FaultedWith (.unknownOpcode w) (tick (sampled (beginFrame s))) t) ∧
  (∀ w : Word,
    (opOf w = 0x0 ∧ w ≠ 0x00E0 ∧ w ≠ 0x00EE) ∨
    (opOf w = 0x8 ∧ (subOpOf w = 0x8 ∨ subOpOf w = 0x9 ∨ subOpOf w = 0xA ∨ subOpOf w = 0xB ∨ subOpOf w = 0xC ∨
      subOpOf w = 0xD ∨ subOpOf w = 0xF)) → ∀ i, decode w ≠ .ok i)

/-- 45_illegal.md R141, R142, R144 (spec decisions D10, D11, log 17): groups E and F whole, the keypad words among them, and
groups 5 and 9 with a nonzero low nibble are illegal. -/
def Obligations.KeypadAndGroupWordsIllegal : Prop :=
  ∀ w : Word, opOf w = 0xE ∨ opOf w = 0xF ∨ ((opOf w = 0x5 ∨ opOf w = 0x9) ∧ subOpOf w ≠ 0) →
    ∀ i, decode w ≠ .ok i

/-- 60_exceptions.md R171 (spec decision D21, log 21): a frame on which `display_open` is 0 stops the machine and does nothing
more: no tick, no step, no port used. -/
def Obligations.ClosedDisplayStops : Prop :=
  ∀ s : State, s.runState = .running → displayOpen s = false →
    ∃ t, step s = .next t ∧ t.runState = .stopped ∧ t.pulses = [] ∧
      t.pc = s.pc ∧ KeepsRegs [] s t ∧ t.i = s.i ∧ KeepsStack s t ∧ t.dt = s.dt ∧ t.st = s.st ∧ t.tone = s.tone ∧
      t.faultCode = s.faultCode ∧ t.faultInfo = s.faultInfo ∧ t.fb = s.fb ∧ KeepsMemory s t ∧ KeepsDraws s t ∧
      t.displayOpenIn = s.displayOpenIn.tail

/-- 60_exceptions.md R155: a faulted machine stays as it is, latches included, for any number of frames, and uses no
port. The same of Stopped and LoadFailed is R156, whose run states are the spec's decisions D15 and D24 (log 11, 22). -/
def Obligations.HaltedMachineIsAbsorbing : Prop :=
  ∀ (k : Nat) (s : State), s.runState ≠ .running →
    ∃ t, Sys2Proof.core.run k s = .next t ∧ t = { s with pulses := t.pulses } ∧ (0 < k → t.pulses = [])

/-- 60_exceptions.md R152 (the fetch row is the spec's decision D9, log 12): which instruction can raise what, and when; and
the tick cannot fault. That each of these faults is precise is R153, the spec's decision D15 (log 11). -/
def Obligations.OnlyListedFaults : Prop :=
  (∀ s : State, (tick s).runState = s.runState) ∧
  (∀ (i : Instr) (s t : State), s.runState = .running → exec i s = .next t →
    (t.runState = .faulted ↔
      (i = .ret ∧ s.sp.val = 0) ∨ (∃ nnn, i = .call nnn ∧ s.sp.val = 16) ∨
      (∃ x y n, i = .drw x y n ∧ 0 < n.val ∧ 0xFFF < s.i.toNat + n.val - 1)) ∧
    (t.runState = .faulted → ∃ e, FaultedWith e s t ∧
      ((i = .ret ∧ e = .stackUnderflow) ∨ (∃ nnn, i = .call nnn ∧ e = .stackOverflow) ∨
       (∃ x y n, i = .drw x y n ∧ ∃ a, e = .addressOutOfRange a)))) ∧
  (∀ s : State, Ready s → 0xFFE < s.pc.toNat →
    ∃ t a, step s = .next t ∧ FaultedWith (.addressOutOfRange a) (tick (sampled (beginFrame s))) t) ∧
  (∀ (s : State) (w : Word), Ready s → WordAtPc s w → (∀ i, decode w ≠ .ok i) →
    ∃ t, step s = .next t ∧ FaultedWith (.unknownOpcode w) (tick (sampled (beginFrame s))) t) ∧
  (∀ (s : State) (w : Word) (i : Instr), Ready s → WordAtPc s w → decode w = .ok i →
    step s = exec i (tick (sampled (beginFrame s))))

/-- 60_exceptions.md R153 (spec decision D15, log 11): whatever a frame executed, if it ends Faulted then nothing but the run
state and the latches differs from the state the tick left. -/
def Obligations.FaultsArePrecise : Prop :=
  ∀ s t : State, Ready s → step s = .next t → t.runState = .faulted →
    ∃ e : Exn, FaultedWith e (tick (sampled (beginFrame s))) t

/-! ### Control transfer (40_flow.md) -/

/-- 40_flow.md R80: RET pops into PC; on an empty stack it raises `StackUnderflow` and changes nothing else. That SP counts
the valid entries and that the popped entry stays in place are the spec's decisions D14 and D26 (10_state.md R20, log 14);
the precise underflow is D15 (60_exceptions.md R153, log 11). -/
def Obligations.RetPopsReturnAddress : Prop :=
  RowDecodes 0xFFFF 0x00EE (fun _ => .ret) ∧
  (∀ s : State, (h : 0 < s.sp.val) → ∃ t, exec .ret s = .next t ∧
    t.pc = s.stack[s.sp.val - 1]'(by have := s.sp.isLt; omega) ∧ t.sp.val = s.sp.val - 1 ∧ t.stack = s.stack ∧
    KeepsRegs [] s t ∧ KeepsBlock s t ∧ t.i = s.i ∧ KeepsScreen s t ∧ KeepsDraws s t) ∧
  (∀ s : State, s.sp.val = 0 → ∃ t, exec .ret s = .next t ∧ FaultedWith .stackUnderflow s t)

/-- 40_flow.md R81: JP nnn. -/
def Obligations.JpSetsPc : Prop :=
  RowDecodes 0xF000 0x1000 (fun w => .jp (nnnOf w)) ∧
  ∀ (nnn : Addr12) (s : State), ∃ t, exec (.jp nnn) s = .next t ∧
    t.pc.toNat = nnn.toNat ∧ KeepsAllButPc s t

/-- 40_flow.md R82: CALL pushes the address after itself and jumps; with 16 entries in use it raises `StackOverflow` and
changes nothing else. That all 16 entries are usable, SP counting the valid ones, is the spec's decision D14 (10_state.md
R20, log 14); the precise overflow is D15 (60_exceptions.md R153, log 11). -/
def Obligations.CallPushesReturnAddress : Prop :=
  RowDecodes 0xF000 0x2000 (fun w => .call (nnnOf w)) ∧
  (∀ (nnn : Addr12) (s : State), (h : s.sp.val < 16) → ∃ t, exec (.call nnn) s = .next t ∧
    t.pc.toNat = nnn.toNat ∧ t.sp.val = s.sp.val + 1 ∧
    t.stack[s.sp.val].toNat = (s.pc.toNat + 2) % 65536 ∧
    (∀ k : Fin 16, k.val ≠ s.sp.val → t.stack[k] = s.stack[k]) ∧
    KeepsRegs [] s t ∧ KeepsBlock s t ∧ t.i = s.i ∧ KeepsScreen s t ∧ KeepsDraws s t) ∧
  (∀ (nnn : Addr12) (s : State), s.sp.val = 16 → ∃ t, exec (.call nnn) s = .next t ∧ FaultedWith .stackOverflow s t)

/-- 40_flow.md R83 (the sum is not reduced modulo 4096: spec decision D9, log 12): JP V0, nnn. -/
def Obligations.JpV0AddsV0 : Prop :=
  RowDecodes 0xF000 0xB000 (fun w => .jpV0 (nnnOf w)) ∧
  ∀ (nnn : Addr12) (s : State), ∃ t, exec (.jpV0 nnn) s = .next t ∧
    t.pc.toNat = nnn.toNat + (readV s 0).toNat ∧ KeepsAllButPc s t

/-- 40_flow.md R80, R82 together (SP as the count of entries is the spec's decision D14, log 14): a RET executed in the state
a CALL left comes back to the word after the CALL with the stack depth it found; entries below are untouched. -/
def Obligations.CallThenRetReturns : Prop :=
  ∀ (nnn : Addr12) (s : State), s.sp.val < 16 →
    ∃ t u, exec (.call nnn) s = .next t ∧ exec .ret t = .next u ∧
      u.pc = s.pc + 2 ∧ u.sp = s.sp ∧ (∀ k : Fin 16, k.val < s.sp.val → u.stack[k] = s.stack[k]) ∧
      KeepsRegs [] s u ∧ KeepsBlock s u

/-! ### Skips (41_skip.md) -/

/-- 41_skip.md R90: SE Vx, kk. -/
def Obligations.SeSkipsOnEqual : Prop :=
  RowDecodes 0xF000 0x3000 (fun w => .se (xOf w) (kkOf w)) ∧
  ∀ (x : RegIdx) (kk : Byte) (s : State), ∃ t, exec (.se x kk) s = .next t ∧
    (readV s x = kk → t.pc.toNat = (s.pc.toNat + 4) % 65536) ∧
    (readV s x ≠ kk → t.pc.toNat = (s.pc.toNat + 2) % 65536) ∧ KeepsAllButPc s t

/-- 41_skip.md R91: SNE Vx, kk. -/
def Obligations.SneSkipsOnDifferent : Prop :=
  RowDecodes 0xF000 0x4000 (fun w => .sne (xOf w) (kkOf w)) ∧
  ∀ (x : RegIdx) (kk : Byte) (s : State), ∃ t, exec (.sne x kk) s = .next t ∧
    (readV s x ≠ kk → t.pc.toNat = (s.pc.toNat + 4) % 65536) ∧
    (readV s x = kk → t.pc.toNat = (s.pc.toNat + 2) % 65536) ∧ KeepsAllButPc s t

/-- 41_skip.md R92: SE Vx, Vy. That `5xyn` with `n` not 0 is illegal is the spec's decision D10 (45_illegal.md R144,
log 17). -/
def Obligations.SeRegSkipsOnEqual : Prop :=
  RowDecodes 0xF00F 0x5000 (fun w => .seReg (xOf w) (yOf w)) ∧
  (∀ w : Word, opOf w = 0x5 → subOpOf w ≠ 0 → ∀ i, decode w ≠ .ok i) ∧
  ∀ (x y : RegIdx) (s : State), ∃ t, exec (.seReg x y) s = .next t ∧
    (readV s x = readV s y → t.pc.toNat = (s.pc.toNat + 4) % 65536) ∧
    (readV s x ≠ readV s y → t.pc.toNat = (s.pc.toNat + 2) % 65536) ∧ KeepsAllButPc s t

/-- 41_skip.md R93: SNE Vx, Vy. That `9xyn` with `n` not 0 is illegal is the spec's decision D10 (45_illegal.md R144,
log 17). -/
def Obligations.SneRegSkipsOnDifferent : Prop :=
  RowDecodes 0xF00F 0x9000 (fun w => .sneReg (xOf w) (yOf w)) ∧
  (∀ w : Word, opOf w = 0x9 → subOpOf w ≠ 0 → ∀ i, decode w ≠ .ok i) ∧
  ∀ (x y : RegIdx) (s : State), ∃ t, exec (.sneReg x y) s = .next t ∧
    (readV s x ≠ readV s y → t.pc.toNat = (s.pc.toNat + 4) % 65536) ∧
    (readV s x = readV s y → t.pc.toNat = (s.pc.toNat + 2) % 65536) ∧ KeepsAllButPc s t

/-! ### Immediates, index, random (42_load_imm.md) -/

/-- 42_load_imm.md R100: LD Vx, kk; VF is an ordinary destination. -/
def Obligations.LdLoadsImmediate : Prop :=
  RowDecodes 0xF000 0x6000 (fun w => .ld (xOf w) (kkOf w)) ∧
  ∀ (x : RegIdx) (kk : Byte) (s : State), ∃ t, exec (.ld x kk) s = .next t ∧
    readV t x = kk ∧ KeepsRegs [x] s t ∧ t.pc.toNat = (s.pc.toNat + 2) % 65536 ∧ KeepsRest s t

/-- 42_load_imm.md R101: ADD Vx, kk wraps and writes no flag; with x = 15 VF receives the sum. -/
def Obligations.AddImmediateWrapsWithoutFlag : Prop :=
  RowDecodes 0xF000 0x7000 (fun w => .add (xOf w) (kkOf w)) ∧
  ∀ (x : RegIdx) (kk : Byte) (s : State), ∃ t, exec (.add x kk) s = .next t ∧
    (readV t x).toNat = ((readV s x).toNat + kk.toNat) % 256 ∧
    KeepsRegs [x] s t ∧ t.pc.toNat = (s.pc.toNat + 2) % 65536 ∧ KeepsRest s t

/-- 42_load_imm.md R102: LD I, nnn; it is the only writer of `I`. -/
def Obligations.LdILoadsIndex : Prop :=
  RowDecodes 0xF000 0xA000 (fun w => .ldI (nnnOf w)) ∧
  (∀ (nnn : Addr12) (s : State), ∃ t, exec (.ldI nnn) s = .next t ∧
    t.i.toNat = nnn.toNat ∧ t.pc.toNat = (s.pc.toNat + 2) % 65536 ∧
    KeepsRegs [] s t ∧ KeepsBlock s t ∧ KeepsStack s t ∧ KeepsScreen s t ∧ KeepsDraws s t) ∧
  (∀ (i : Instr) (s t : State), exec i s = .next t → t.i ≠ s.i → ∃ nnn, i = .ldI nnn)

/-- 42_load_imm.md R104 (spec decision D17, log 9): RND masks one draw; the draw is the next byte the host put on `rnd`,
any of the 256, else a free value, and whatever it is no bit outside the mask is set. -/
def Obligations.RndMasksOneDraw : Prop :=
  RowDecodes 0xF000 0xC000 (fun w => .rnd (xOf w) (kkOf w)) ∧
  ∀ (x : RegIdx) (kk : Byte) (s : State), ∃ t, exec (.rnd x kk) s = .next t ∧
    readV t x = draw8 s &&& kk ∧ readV t x &&& ~~~kk = 0 ∧
    (∀ b rest, s.rndIn = b :: rest → readV t x = b &&& kk ∧ t.rndIn = rest) ∧
    (s.rndIn = [] → t.rndIn = []) ∧ t.draws = s.draws + 1 ∧
    KeepsRegs [x] s t ∧ t.pc.toNat = (s.pc.toNat + 2) % 65536 ∧
    KeepsBlock s t ∧ t.i = s.i ∧ KeepsStack s t ∧ KeepsScreen s t

/-! ### The ALU (43_alu.md) -/

/-- 43_alu.md R111: LD Vx, Vy. -/
def Obligations.LdRegCopies : Prop :=
  RowDecodes 0xF00F 0x8000 (fun w => .ldReg (xOf w) (yOf w)) ∧
  ∀ (x y : RegIdx) (s : State), ∃ t, exec (.ldReg x y) s = .next t ∧
    readV t x = readV s y ∧ KeepsRegs [x] s t ∧ t.pc.toNat = (s.pc.toNat + 2) % 65536 ∧ KeepsRest s t

/-- 43_alu.md R112, R113, R114: OR, AND and XOR, bit by bit; VF is written only as the destination. -/
def Obligations.LogicIsBitwiseWithoutFlag : Prop :=
  RowDecodes 0xF00F 0x8001 (fun w => .or (xOf w) (yOf w)) ∧
  RowDecodes 0xF00F 0x8002 (fun w => .and (xOf w) (yOf w)) ∧
  RowDecodes 0xF00F 0x8003 (fun w => .xor (xOf w) (yOf w)) ∧
  ∀ (x y : RegIdx) (s : State),
    (∃ t, exec (.or x y) s = .next t ∧
      (∀ b < 8, (readV t x).getLsbD b = ((readV s x).getLsbD b || (readV s y).getLsbD b)) ∧
      KeepsRegs [x] s t ∧ t.pc.toNat = (s.pc.toNat + 2) % 65536 ∧ KeepsRest s t) ∧
    (∃ t, exec (.and x y) s = .next t ∧
      (∀ b < 8, (readV t x).getLsbD b = ((readV s x).getLsbD b && (readV s y).getLsbD b)) ∧
      KeepsRegs [x] s t ∧ t.pc.toNat = (s.pc.toNat + 2) % 65536 ∧ KeepsRest s t) ∧
    (∃ t, exec (.xor x y) s = .next t ∧
      (∀ b < 8, (readV t x).getLsbD b = ((readV s x).getLsbD b != (readV s y).getLsbD b)) ∧
      KeepsRegs [x] s t ∧ t.pc.toNat = (s.pc.toNat + 2) % 65536 ∧ KeepsRest s t)

/-- 43_alu.md R115: ADD Vx, Vy; the carry is written after the sum. That operands are read before the first write, on which
the result with `x` or `y` 15 rests, is the spec's decision D13 (43_alu.md R110, R121; log 13). -/
def Obligations.AddRegSetsCarry : Prop :=
  RowDecodes 0xF00F 0x8004 (fun w => .addReg (xOf w) (yOf w)) ∧
  ∀ (x y : RegIdx) (s : State), ∃ t, exec (.addReg x y) s = .next t ∧
    (x ≠ vF → (readV t x).toNat = ((readV s x).toNat + (readV s y).toNat) % 256) ∧
    readV t vF = (if (readV s x).toNat + (readV s y).toNat > 255 then 1 else 0) ∧
    KeepsRegs [x, vF] s t ∧ t.pc.toNat = (s.pc.toNat + 2) % 65536 ∧ KeepsRest s t

/-- 43_alu.md R116: SUB Vx, Vy; the flag is written before the difference and is 0 on a tie. That operands are read before
the first write, on which the results with `x` or `y` 15 rest, is the spec's decision D13 (43_alu.md R110, R121; log 13). -/
def Obligations.SubSetsStrictFlag : Prop :=
  RowDecodes 0xF00F 0x8005 (fun w => .sub (xOf w) (yOf w)) ∧
  ∀ (x y : RegIdx) (s : State), ∃ t, exec (.sub x y) s = .next t ∧
    ((readV t x).toNat : Int) = ((readV s x).toNat - (readV s y).toNat : Int) % 256 ∧
    (x ≠ vF → readV t vF = (if (readV s x).toNat > (readV s y).toNat then 1 else 0)) ∧
    KeepsRegs [x, vF] s t ∧ t.pc.toNat = (s.pc.toNat + 2) % 65536 ∧ KeepsRest s t

/-- 43_alu.md R117: SHR Vx, for every value of the ignored field `y`; the flag is written before the result. That Vx is read
before the first write, on which the result with `x` 15 rests, is the spec's decision D13 (43_alu.md R110, R121; log 13). -/
def Obligations.ShrCapturesLowBit : Prop :=
  RowDecodes 0xF00F 0x8006 (fun w => .shr (xOf w) (yOf w)) ∧
  ∀ (x y : RegIdx) (s : State), ∃ t, exec (.shr x y) s = .next t ∧
    (readV t x).toNat = (readV s x).toNat / 2 ∧
    (x ≠ vF → (readV t vF).toNat = (readV s x).toNat % 2) ∧
    KeepsRegs [x, vF] s t ∧ t.pc.toNat = (s.pc.toNat + 2) % 65536 ∧ KeepsRest s t

/-- 43_alu.md R118: SUBN Vx, Vy writes Vy; the flag is written before the difference and is 0 on a tie. That operands are
read before the first write, on which the results with `x` or `y` 15 rest, is the spec's decision D13 (43_alu.md R110, R121; log 13). -/
def Obligations.SubnWritesVy : Prop :=
  RowDecodes 0xF00F 0x8007 (fun w => .subn (xOf w) (yOf w)) ∧
  ∀ (x y : RegIdx) (s : State), ∃ t, exec (.subn x y) s = .next t ∧
    ((readV t y).toNat : Int) = ((readV s y).toNat - (readV s x).toNat : Int) % 256 ∧
    (y ≠ vF → readV t vF = (if (readV s x).toNat ≥ (readV s y).toNat then 0 else 1)) ∧
    KeepsRegs [y, vF] s t ∧ t.pc.toNat = (s.pc.toNat + 2) % 65536 ∧ KeepsRest s t

/-- 43_alu.md R119: SHL Vx, for every value of the ignored field `y`; the flag is bit 7 and is written before the
result. That Vx is read before the first write, on which the result with `x` 15 rests, is the spec's decision D13 (43_alu.md R110, R121; log 13). -/
def Obligations.ShlCapturesHighBit : Prop :=
  RowDecodes 0xF00F 0x800E (fun w => .shl (xOf w) (yOf w)) ∧
  ∀ (x y : RegIdx) (s : State), ∃ t, exec (.shl x y) s = .next t ∧
    (readV t x).toNat = (2 * (readV s x).toNat) % 256 ∧
    (x ≠ vF → (readV t vF).toNat = (readV s x).toNat / 128) ∧
    KeepsRegs [x, vF] s t ∧ t.pc.toNat = (s.pc.toNat + 2) % 65536 ∧ KeepsRest s t

/-- 10_state.md R12: whatever instruction runs, a register it does not list as written keeps its value, and a register it
does not list as read has no influence: two runs that differ only in that register end alike everywhere else, and alike
there too when the instruction writes it. -/
def Obligations.RegisterUseTable : Prop :=
  (∀ (i : Instr) (s t : State), exec i s = .next t → KeepsRegs (regsWritten i) s t) ∧
  (∀ (i : Instr) (s t : State) (r : RegIdx) (b : Byte), r ∉ regsRead i → exec i s = .next t →
    ∃ u, exec i (writeV r b s) = .next u ∧ { u with v := t.v } = t ∧ KeepsRegs [r] t u ∧
      (r ∈ regsWritten i → t.runState ≠ .faulted → readV u r = readV t r) ∧
      (r ∉ regsWritten i → readV u r = b))

/-! ### The display (44_display.md, 60_exceptions.md R166 to R170) -/

/-- 60_exceptions.md R167, R168, R169: `clear`, `get_pixel` and `set_pixel` of the Display; a set outside the grid does
nothing. -/
def Obligations.DisplayContract : Prop :=
  (∀ x y : Nat, x < 64 → y < 32 → getPixel clearedFb x y = false) ∧
  (∀ (fb : Framebuffer) (x y x' y' : Nat) (on : Bool), x < 64 → y < 32 → x' < 64 → y' < 32 →
    getPixel (setPixel fb x y on) x' y' = if x' = x ∧ y' = y then on else getPixel fb x' y') ∧
  (∀ (fb : Framebuffer) (x y : Nat) (on : Bool), ¬ (x < 64 ∧ y < 32) → setPixel fb x y on = fb)

/-- 44_display.md R130: CLS turns every pixel off whatever was on. That it asks for one present, after the clear, is R133, the
spec's decision D20 (log 20); the port list is the model's record of the calls (log 10). -/
def Obligations.ClsClearsEveryPixel : Prop :=
  RowDecodes 0xFFFF 0x00E0 (fun _ => .cls) ∧
  ∀ s : State, ∃ t, exec .cls s = .next t ∧
    (∀ px py : Nat, px < 64 → py < 32 → getPixel t.fb px py = false) ∧
    t.pulses = s.pulses ++ [.dispClear, .dispPresent] ∧
    t.pc.toNat = (s.pc.toNat + 2) % 65536 ∧ KeepsRegs [] s t ∧ t.i = s.i ∧ KeepsStack s t ∧ KeepsBlock s t ∧
    KeepsDraws s t

/-- 44_display.md R131, R132 (spec decisions D12, D18, D19; log 18): a DRW whose sprite lies in memory inverts exactly the
pixels some 1 bit of the sprite lands on, VF tells whether one of them was on, and nothing else but PC and the port
changes. -/
def Obligations.DrwInvertsSpritePixels : Prop :=
  RowDecodes 0xF000 0xD000 (fun w => .drw (xOf w) (yOf w) (nOf w)) ∧
  ∀ (x y : RegIdx) (n : Fin 16) (s : State), SpriteFits s n → ∃ t, exec (.drw x y n) s = .next t ∧
    (∀ px py : Nat, px < 64 → py < 32 →
      (SpriteCovers s.mem s.i.toNat n.val (readV s x) (readV s y) px py → getPixel t.fb px py = !getPixel s.fb px py) ∧
      (¬ SpriteCovers s.mem s.i.toNat n.val (readV s x) (readV s y) px py → getPixel t.fb px py = getPixel s.fb px py)) ∧
    ((∃ px py : Nat, px < 64 ∧ py < 32 ∧ getPixel s.fb px py = true ∧ getPixel t.fb px py = false) → readV t vF = 1) ∧
    ((∀ px py : Nat, px < 64 → py < 32 → getPixel s.fb px py = true → getPixel t.fb px py = true) → readV t vF = 0) ∧
    KeepsRegs [vF] s t ∧ t.pc.toNat = (s.pc.toNat + 2) % 65536 ∧
    t.i = s.i ∧ KeepsStack s t ∧ KeepsBlock s t ∧ KeepsDraws s t

/-- 20_memory.md R47, 44_display.md R131 (spec decision D19, log 12; the fault is precise: D15, log 11): a DRW whose last
byte lies above 0xFFF raises `AddressOutOfRange(0x1000)` before any effect. -/
def Obligations.DrwOutOfRangeFaults : Prop :=
  ∀ (x y : RegIdx) (n : Fin 16) (s : State), 0 < n.val → 0xFFF < s.i.toNat + n.val - 1 →
    ∃ t, exec (.drw x y n) s = .next t ∧ FaultedWith (.addressOutOfRange 0x1000) s t

/-- 44_display.md R131, R132 point 8, R133, 20_memory.md R53 (spec decisions D18, D20; log 10, 18, 20): a DRW calls the
Display once to get and once to set each pixel a 1 bit lands on, rows top to bottom and columns left to right, each get
answered with the pixel as it stood before the instruction, and presents once at the end. -/
def Obligations.DrwCallsDisplayInOrder : Prop :=
  ∀ (x y : RegIdx) (n : Fin 16) (s : State), SpriteFits s n → ∃ t, exec (.drw x y n) s = .next t ∧
    t.pulses = s.pulses ++
      (spritePixels s.mem s.i.toNat n.val (readV s x) (readV s y)).flatMap (fun p =>
        [.dispGet p (getPixel s.fb p.px.val p.py.val), .dispSet p (!getPixel s.fb p.px.val p.py.val)]) ++
      [.dispPresent]

/-- 44_display.md R131, corner cases (spec decision D18, log 18): drawing the same sprite twice at the same place restores
every pixel; if it has a 1 bit at least one of the two draws sets VF, and an all-zero sprite sets VF to 0 both times. The
premise that Vx and Vy still hold what they held leaves out only a coordinate in VF that the first draw changed, where the
second draw is at another place. -/
def Obligations.DrwTwiceRestoresScreen : Prop :=
  ∀ (x y : RegIdx) (n : Fin 16) (s : State), SpriteFits s n → ∃ t, exec (.drw x y n) s = .next t ∧
    (readV t x = readV s x → readV t y = readV s y → ∃ u, exec (.drw x y n) t = .next u ∧
      (∀ px py : Nat, px < 64 → py < 32 → getPixel u.fb px py = getPixel s.fb px py) ∧
      ((∃ px py : Nat, SpriteCovers s.mem s.i.toNat n.val (readV s x) (readV s y) px py) →
        readV t vF = 1 ∨ readV u vF = 1) ∧
      ((∀ px py : Nat, ¬ SpriteCovers s.mem s.i.toNat n.val (readV s x) (readV s y) px py) →
        readV t vF = 0 ∧ readV u vF = 0))

/-- 44_display.md R133 (spec decision D20, log 20) and 60_exceptions.md R153 (D15, log 11): a present is asked for once by CLS
and by a DRW that does not fault, and by no other instruction. -/
def Obligations.PresentOnlyAfterClsAndDrw : Prop :=
  ∀ (i : Instr) (s t : State), s.runState = .running → exec i s = .next t →
    (t.runState = .faulted → t.pulses = s.pulses) ∧
    (t.runState ≠ .faulted → (i = .cls ∨ ∃ x y n, i = .drw x y n) →
      t.pulses.count .dispPresent = s.pulses.count .dispPresent + 1 ∧ t.pulses.getLast? = some .dispPresent) ∧
    (i ≠ .cls → (∀ x y n, i ≠ .drw x y n) → t.pulses = s.pulses)

/-! ### Timers (60_exceptions.md R160 to R165) -/

/-- 60_exceptions.md R163 (spec decision D28, log 21): what one tick does to the timers, the tone and the Beeper port, and that
it touches nothing else. -/
def Obligations.TickCountsDownAndCommandsBeeper : Prop :=
  ∀ s : State,
    (tick s).dt.toNat = s.dt.toNat - 1 ∧ (tick s).st.toNat = s.st.toNat - 1 ∧
    (s.st = 0 → (tick s).tone = false ∧ (tick s).pulses = s.pulses ++ [.beepStop]) ∧
    (s.st ≠ 0 → (tick s).tone = true ∧ (tick s).pulses = s.pulses ++ [.beepStart]) ∧
    KeepsRegs [] s (tick s) ∧ (tick s).pc = s.pc ∧ (tick s).i = s.i ∧ KeepsStack s (tick s) ∧
    KeepsMemory s (tick s) ∧ (tick s).fb = s.fb ∧ KeepsDraws s (tick s) ∧ (tick s).runState = s.runState ∧
    (tick s).faultCode = s.faultCode ∧ (tick s).faultInfo = s.faultInfo ∧ (tick s).displayOpenIn = s.displayOpenIn

/-- 60_exceptions.md R164, R172 (spec decisions D27, D28, log 21): whatever a frame executes, and whether or not it faults, it
issues exactly one Beeper command, before any other use of a port, and the tone is on afterwards exactly when `ST` was
nonzero before. -/
def Obligations.OneBeeperCommandPerFrame : Prop :=
  ∀ s t : State, Ready s → step s = .next t →
    ∃ rest, t.pulses = (if s.st = 0 then PortPulse.beepStop else .beepStart) :: rest ∧ beeperCommands rest = [] ∧
      (t.tone = true ↔ s.st ≠ 0)

/-- 60_exceptions.md R161, R172 (spec decisions D4, D27; log 4, 21): after `k` frames that all ran, from any state, `DT` and
`ST` have counted down by `k` and stopped at 0; no instruction changes that. -/
def Obligations.TimersCountFrames : Prop :=
  ∀ (k : Nat) (s t : State), RunsClean k s t →
    t.dt.toNat = s.dt.toNat - k ∧ t.st.toNat = s.st.toNat - k

/-- 10_state.md R21, R22, 60_exceptions.md R158: nothing in the CPU can observe the timers: with other timer values and
another tone an instruction does the same and leaves them alone. -/
def Obligations.TimersAreInvisibleToInstructions : Prop :=
  ∀ (i : Instr) (s t : State) (d e : Byte) (b : Bool), exec i s = .next t →
    t.dt = s.dt ∧ t.st = s.st ∧ t.tone = s.tone ∧
    exec i { s with dt := d, st := e, tone := b } = .next { t with dt := d, st := e, tone := b }

/-- 10_state.md R14: only Annn writes `I`, and only Dxyn reads it: any other instruction does the same whatever `I`
holds. -/
def Obligations.IndexRegisterUse : Prop :=
  ∀ (i : Instr) (s t : State) (a : Word), exec i s = .next t →
    ((∀ nnn, i ≠ .ldI nnn) → t.i = s.i) ∧
    ((∀ nnn, i ≠ .ldI nnn) → (∀ x y n, i ≠ .drw x y n) → exec i { s with i := a } = .next { t with i := a }) ∧
    (∀ nnn, i = .ldI nnn → exec i { s with i := a } = .next t)

/-- 10_state.md R19, R20, R26: only CALL and RET touch the stack, only CLS and DRW the framebuffer. That RET leaves every stack
entry as it was, so that entries change only under CALL, is the spec's decision D26 (R20, log 14). -/
def Obligations.StackAndScreenWriters : Prop :=
  ∀ (i : Instr) (s t : State), exec i s = .next t →
    ((∀ nnn, i ≠ .call nnn) → t.stack = s.stack) ∧
    ((∀ nnn, i ≠ .call nnn) → i ≠ .ret → t.sp = s.sp) ∧
    (i ≠ .cls → (∀ x y n, i ≠ .drw x y n) → t.fb = s.fb)

/-! ### The whole machine -/

/-- 20_memory.md R48, R52: no step changes memory, so after any number of frames, from any state, every byte reads as it
did. The clause `t.mem.wf = s.mem.wf`, on the canonical form, is THE MODEL'S OWN (log 26) and no rule of the spec. -/
def Obligations.MemoryNeverChanges : Prop :=
  ∀ (k : Nat) (s t : State), Sys2Proof.core.run k s = .next t → KeepsMemory s t ∧ t.mem.wf = s.mem.wf

/-- Every step keeps the invariant: `I` inside memory (10_state.md R15), PC at most 0x10FE (R17, R18; spec decisions D9, D25,
log 12, 27), return addresses at most 0x1000 (40_flow.md R82), the latches clear until a fault and a row of
60_exceptions.md R151 after it (spec decision D15, log 11), memory in the model's canonical form (log 26). -/
def Obligations.StepKeepsMachineInvariant : Prop :=
  ∀ s t : State, s.Inv → step s = .next t → t.Inv

/-- The invariant holds after every successful load, `State.reset` included. That `I` and the stack entries meet their bounds
at reset rests on the zeros of 10_state.md R28, the spec's decision D3 (log 3); the cleared latches are D15 (log 11), and
the image is 70_reset_and_hazards.md R192 in the model's canonical form (log 26). -/
def Obligations.LoadedMachineMeetsInvariant : Prop :=
  State.reset.Inv ∧ ∀ r : ResetInputs, r.program.length ≤ 3584 → (boot r).Inv

/-- 20_memory.md R46, R47 (spec decisions D9, D19, log 12) with 10_state.md R15 and 60_exceptions.md R151 (D15, log 11): under
the invariant the address a DRW records is the lowest address above 0xFFF its sprite would have touched. -/
def Obligations.DrwRecordsLowestBadAddress : Prop :=
  ∀ (x y : RegIdx) (n : Fin 16) (s t : State), s.Inv → s.runState = .running → exec (.drw x y n) s = .next t →
    t.runState = .faulted →
    (∃ r : Nat, r < n.val ∧ s.i.toNat + r = t.faultInfo.toNat) ∧ 0xFFF < t.faultInfo.toNat ∧
    ∀ r : Nat, r < n.val → 0xFFF < s.i.toNat + r → t.faultInfo.toNat ≤ s.i.toNat + r
end

