-- ==== Sys2Proof/Laws/Decode.lean ====
section
/-! SUPPORT. The fields of encoded words, what a mask of the opcode map says about the fields, and the byte order
(30_encoding.md R61, R64, 20_memory.md R43). -/

namespace Sys2Proof

@[simp] theorem nibbleIdx_idxNibble (r : Fin 16) : nibbleIdx (idxNibble r) = r := rfl
@[simp] theorem idxNibble_nibbleIdx (b : BitVec 4) : idxNibble (nibbleIdx b) = b := rfl

/-! ### Fields as numbers -/

theorem opOf_toNat (w : Word) : (opOf w).toNat = w.toNat / 4096 := by
  have := w.isLt
  simp only [opOf, BitVec.extractLsb'_toNat, Nat.shiftRight_eq_div_pow]
  omega

theorem xNibble_toNat (w : Word) : (w.extractLsb' 8 4).toNat = w.toNat / 256 % 16 := by
  simp only [BitVec.extractLsb'_toNat, Nat.shiftRight_eq_div_pow]

theorem yNibble_toNat (w : Word) : (w.extractLsb' 4 4).toNat = w.toNat / 16 % 16 := by
  simp only [BitVec.extractLsb'_toNat, Nat.shiftRight_eq_div_pow]

theorem subOpOf_toNat (w : Word) : (subOpOf w).toNat = w.toNat % 16 := by
  simp only [subOpOf, BitVec.extractLsb'_toNat, Nat.shiftRight_eq_div_pow]
  omega

theorem kkOf_toNat (w : Word) : (kkOf w).toNat = w.toNat % 256 := by
  simp only [kkOf, BitVec.extractLsb'_toNat, Nat.shiftRight_eq_div_pow]
  omega

theorem nnnOf_toNat (w : Word) : (nnnOf w).toNat = w.toNat % 4096 := by
  simp only [nnnOf, BitVec.extractLsb'_toNat, Nat.shiftRight_eq_div_pow]
  omega

/-! ### The three forms as numbers -/

theorem append_toNat {a b : Nat} (x : BitVec a) (y : BitVec b) : (x ++ y).toNat = x.toNat * 2 ^ b + y.toNat := by
  rw [BitVec.toNat_append, Nat.shiftLeft_eq, Nat.mul_comm, Nat.two_pow_add_eq_or_of_lt y.isLt]

theorem formA_toNat (op : BitVec 4) (nnn : Addr12) : (formA op nnn).toNat = op.toNat * 4096 + nnn.toNat :=
  append_toNat op nnn

theorem formA_getLsbD (op : BitVec 4) (nnn : Addr12) (j : Nat) :
    (formA op nnn).getLsbD j = if j < 12 then nnn.getLsbD j else op.getLsbD (j - 12) :=
  BitVec.getLsbD_append

theorem formI_toNat (op : BitVec 4) (x : RegIdx) (kk : Byte) :
    (formI op x kk).toNat = op.toNat * 4096 + x.val * 256 + kk.toNat := by
  simp only [formI, append_toNat, idxNibble, BitVec.toNat_ofFin]
  omega

theorem formR_toNat (op : BitVec 4) (x y : RegIdx) (n : BitVec 4) :
    (formR op x y n).toNat = op.toNat * 4096 + x.val * 256 + y.val * 16 + n.toNat := by
  simp only [formR, append_toNat, idxNibble, BitVec.toNat_ofFin]
  omega

/-! ### Fields of the three forms -/

theorem formR_getLsbD (op : BitVec 4) (x y : RegIdx) (n : BitVec 4) (j : Nat) :
    (formR op x y n).getLsbD j =
      if j < 4 then n.getLsbD j
      else if j < 8 then (idxNibble y).getLsbD (j - 4)
      else if j < 12 then (idxNibble x).getLsbD (j - 8)
      else op.getLsbD (j - 12) := by
  refine (BitVec.getLsbD_append (x := op ++ idxNibble x ++ idxNibble y) (y := n)).trans ?_
  rw [BitVec.getLsbD_append, BitVec.getLsbD_append]
  by_cases h4 : j < 4
  · simp [h4]
  · by_cases h8 : j < 8
    · simp [h4, h8, show j - 4 < 4 by omega]
    · by_cases h12 : j < 12
      · simp [h4, h8, h12, show ¬ j - 4 < 4 by omega, show j - 4 - 4 = j - 8 by omega,
        show ¬ 4 ≤ j - 8 by omega]
      · simp [h4, h8, h12, show ¬ j - 4 < 4 by omega, show ¬ j - 4 - 4 < 4 by omega,
          show j - 4 - 4 - 4 = j - 12 by omega]

@[simp] theorem opOf_formA (op : BitVec 4) (nnn : Addr12) : opOf (formA op nnn) = op := by
  apply BitVec.eq_of_toNat_eq
  have h1 := nnn.isLt
  rw [opOf_toNat, formA_toNat]
  omega

@[simp] theorem nnnOf_formA (op : BitVec 4) (nnn : Addr12) : nnnOf (formA op nnn) = nnn := by
  apply BitVec.eq_of_toNat_eq
  have h1 := nnn.isLt
  rw [nnnOf_toNat, formA_toNat]
  omega

@[simp] theorem opOf_formI (op : BitVec 4) (x : RegIdx) (kk : Byte) : opOf (formI op x kk) = op := by
  apply BitVec.eq_of_toNat_eq
  have h1 := kk.isLt
  have h2 := x.isLt
  rw [opOf_toNat, formI_toNat]
  omega

@[simp] theorem xOf_formI (op : BitVec 4) (x : RegIdx) (kk : Byte) : xOf (formI op x kk) = x := by
  apply Fin.ext
  have h1 := kk.isLt
  have h2 := x.isLt
  show ((formI op x kk).extractLsb' 8 4).toNat = x.val
  rw [xNibble_toNat, formI_toNat]
  omega

@[simp] theorem kkOf_formI (op : BitVec 4) (x : RegIdx) (kk : Byte) : kkOf (formI op x kk) = kk := by
  apply BitVec.eq_of_toNat_eq
  have h1 := kk.isLt
  rw [kkOf_toNat, formI_toNat]
  omega

@[simp] theorem opOf_formR (op : BitVec 4) (x y : RegIdx) (n : BitVec 4) : opOf (formR op x y n) = op := by
  apply BitVec.eq_of_toNat_eq
  have h1 := n.isLt
  have h2 := x.isLt
  have h3 := y.isLt
  rw [opOf_toNat, formR_toNat]
  omega

@[simp] theorem xOf_formR (op : BitVec 4) (x y : RegIdx) (n : BitVec 4) : xOf (formR op x y n) = x := by
  apply Fin.ext
  have h1 := n.isLt
  have h2 := x.isLt
  have h3 := y.isLt
  show ((formR op x y n).extractLsb' 8 4).toNat = x.val
  rw [xNibble_toNat, formR_toNat]
  omega

@[simp] theorem yOf_formR (op : BitVec 4) (x y : RegIdx) (n : BitVec 4) : yOf (formR op x y n) = y := by
  apply Fin.ext
  have h1 := n.isLt
  have h2 := x.isLt
  have h3 := y.isLt
  show ((formR op x y n).extractLsb' 4 4).toNat = y.val
  rw [yNibble_toNat, formR_toNat]
  omega

@[simp] theorem subOpOf_formR (op : BitVec 4) (x y : RegIdx) (n : BitVec 4) : subOpOf (formR op x y n) = n := by
  apply BitVec.eq_of_toNat_eq
  have h1 := n.isLt
  rw [subOpOf_toNat, formR_toNat]
  omega

@[simp] theorem nOf_eq (w : Word) : nOf w = nibbleIdx (subOpOf w) := rfl

/-! ### Rebuilding a word from its fields -/

theorem formA_fields (w : Word) : formA (opOf w) (nnnOf w) = w := by
  apply BitVec.eq_of_toNat_eq
  have := w.isLt
  rw [formA_toNat, opOf_toNat, nnnOf_toNat]
  omega

theorem formI_fields (w : Word) : formI (opOf w) (xOf w) (kkOf w) = w := by
  apply BitVec.eq_of_toNat_eq
  have := w.isLt
  have hx : (xOf w).val = w.toNat / 256 % 16 := xNibble_toNat w
  rw [formI_toNat, opOf_toNat, kkOf_toNat, hx]
  omega

theorem formR_fields (w : Word) : formR (opOf w) (xOf w) (yOf w) (subOpOf w) = w := by
  apply BitVec.eq_of_toNat_eq
  have := w.isLt
  have hx : (xOf w).val = w.toNat / 256 % 16 := xNibble_toNat w
  have hy : (yOf w).val = w.toNat / 16 % 16 := yNibble_toNat w
  rw [formR_toNat, opOf_toNat, subOpOf_toNat, hx, hy]
  omega

/-! ### What a mask of the opcode map says -/

/-- A word masked with F000 is its op-group. -/
theorem opOf_of_maskF000 {w bits : Word} (h : w &&& 0xF000 = bits) : opOf w = opOf bits := by
  rw [← h]
  apply BitVec.eq_of_getLsbD_eq
  intro j hj
  have : j = 0 ∨ j = 1 ∨ j = 2 ∨ j = 3 := by omega
  rcases this with rfl | rfl | rfl | rfl <;> simp [opOf]

/-- A word masked with F00F is its op-group and low nibble. -/
theorem fields_of_maskF00F {w bits : Word} (h : w &&& 0xF00F = bits) :
    opOf w = opOf bits ∧ subOpOf w = subOpOf bits := by
  rw [← h]
  constructor <;>
  · apply BitVec.eq_of_getLsbD_eq
    intro j hj
    have : j = 0 ∨ j = 1 ∨ j = 2 ∨ j = 3 := by omega
    rcases this with rfl | rfl | rfl | rfl <;> simp [opOf, subOpOf]

/-- A word masked with FFFF is itself. -/
theorem eq_of_maskFFFF {w bits : Word} (h : w &&& 0xFFFF = bits) : w = bits := by
  rw [← h]
  exact (BitVec.and_allOnes (x := w)).symm

/-! ### Byte order -/

@[simp] theorem wordOfBytes_bytes (w : Word) : wordOfBytes (hiByte w) (loByte w) = w := by
  apply BitVec.eq_of_toNat_eq
  have := w.isLt
  simp only [wordOfBytes, append_toNat, hiByte, loByte, BitVec.extractLsb'_toNat, Nat.shiftRight_eq_div_pow]
  omega

theorem decodeBytes_cons (hi lo : Byte) (rest : List Byte) :
    decodeBytes (hi :: lo :: rest) = (decode (wordOfBytes hi lo)).map (fun i => (i, rest)) := by
  simp only [decodeBytes]
  cases decode (wordOfBytes hi lo) <;> rfl

end Sys2Proof
end

