-- ==== Sys2Proof/Laws/State.lean ====
section
/-! SUPPORT. One lemma per field of State per update, each true by rfl, so that no later proof unfolds a record update.
The composite updates `advance`, `skipIf`, `present` rewrite to the updates they are made of. -/

namespace Sys2Proof.Machine

@[simp] theorem advance_eq (s : State) : advance s = setPc (s.pc + 2) s := rfl
@[simp] theorem skipIf_eq (c : Bool) (s : State) : skipIf c s = setPc (s.pc + (if c then 4 else 2)) s := rfl
@[simp] theorem present_eq (s : State) : present s = emit [.dispPresent] s := rfl
@[simp] theorem writeResult_eq (d : RegIdx) (r : Byte) (s : State) :
    writeResult d r s = setPc (s.pc + 2) (writeV d r s) := rfl
@[simp] theorem writeResultThenFlag_eq (d : RegIdx) (r f : Byte) (s : State) :
    writeResultThenFlag d r f s = setPc (s.pc + 2) (writeV vF f (writeV d r s)) := rfl
@[simp] theorem writeFlagThenResult_eq (d : RegIdx) (r f : Byte) (s : State) :
    writeFlagThenResult d r f s = setPc (s.pc + 2) (writeV d r (writeV vF f s)) := rfl
@[simp] theorem done_eq (s : State) : done s = .next s := rfl

/-! ### writeV -/

@[simp] theorem writeV_v (x : RegIdx) (b : Byte) (s : State) : (writeV x b s).v = s.v.set x b := rfl
@[simp] theorem writeV_i (x : RegIdx) (b : Byte) (s : State) : (writeV x b s).i = s.i := rfl
@[simp] theorem writeV_pc (x : RegIdx) (b : Byte) (s : State) : (writeV x b s).pc = s.pc := rfl
@[simp] theorem writeV_sp (x : RegIdx) (b : Byte) (s : State) : (writeV x b s).sp = s.sp := rfl
@[simp] theorem writeV_stack (x : RegIdx) (b : Byte) (s : State) : (writeV x b s).stack = s.stack := rfl
@[simp] theorem writeV_dt (x : RegIdx) (b : Byte) (s : State) : (writeV x b s).dt = s.dt := rfl
@[simp] theorem writeV_st (x : RegIdx) (b : Byte) (s : State) : (writeV x b s).st = s.st := rfl
@[simp] theorem writeV_tone (x : RegIdx) (b : Byte) (s : State) : (writeV x b s).tone = s.tone := rfl
@[simp] theorem writeV_runState (x : RegIdx) (b : Byte) (s : State) : (writeV x b s).runState = s.runState := rfl
@[simp] theorem writeV_faultCode (x : RegIdx) (b : Byte) (s : State) : (writeV x b s).faultCode = s.faultCode := rfl
@[simp] theorem writeV_faultInfo (x : RegIdx) (b : Byte) (s : State) : (writeV x b s).faultInfo = s.faultInfo := rfl
@[simp] theorem writeV_mem (x : RegIdx) (b : Byte) (s : State) : (writeV x b s).mem = s.mem := rfl
@[simp] theorem writeV_fb (x : RegIdx) (b : Byte) (s : State) : (writeV x b s).fb = s.fb := rfl
@[simp] theorem writeV_pulses (x : RegIdx) (b : Byte) (s : State) : (writeV x b s).pulses = s.pulses := rfl
@[simp] theorem writeV_displayOpenIn (x : RegIdx) (b : Byte) (s : State) : (writeV x b s).displayOpenIn = s.displayOpenIn := rfl
@[simp] theorem writeV_rndIn (x : RegIdx) (b : Byte) (s : State) : (writeV x b s).rndIn = s.rndIn := rfl
@[simp] theorem writeV_draws (x : RegIdx) (b : Byte) (s : State) : (writeV x b s).draws = s.draws := rfl

/-! ### setI -/

@[simp] theorem setI_v (a : Word) (s : State) : (setI a s).v = s.v := rfl
@[simp] theorem setI_i (a : Word) (s : State) : (setI a s).i = a := rfl
@[simp] theorem setI_pc (a : Word) (s : State) : (setI a s).pc = s.pc := rfl
@[simp] theorem setI_sp (a : Word) (s : State) : (setI a s).sp = s.sp := rfl
@[simp] theorem setI_stack (a : Word) (s : State) : (setI a s).stack = s.stack := rfl
@[simp] theorem setI_dt (a : Word) (s : State) : (setI a s).dt = s.dt := rfl
@[simp] theorem setI_st (a : Word) (s : State) : (setI a s).st = s.st := rfl
@[simp] theorem setI_tone (a : Word) (s : State) : (setI a s).tone = s.tone := rfl
@[simp] theorem setI_runState (a : Word) (s : State) : (setI a s).runState = s.runState := rfl
@[simp] theorem setI_faultCode (a : Word) (s : State) : (setI a s).faultCode = s.faultCode := rfl
@[simp] theorem setI_faultInfo (a : Word) (s : State) : (setI a s).faultInfo = s.faultInfo := rfl
@[simp] theorem setI_mem (a : Word) (s : State) : (setI a s).mem = s.mem := rfl
@[simp] theorem setI_fb (a : Word) (s : State) : (setI a s).fb = s.fb := rfl
@[simp] theorem setI_pulses (a : Word) (s : State) : (setI a s).pulses = s.pulses := rfl
@[simp] theorem setI_displayOpenIn (a : Word) (s : State) : (setI a s).displayOpenIn = s.displayOpenIn := rfl
@[simp] theorem setI_rndIn (a : Word) (s : State) : (setI a s).rndIn = s.rndIn := rfl
@[simp] theorem setI_draws (a : Word) (s : State) : (setI a s).draws = s.draws := rfl

/-! ### setPc -/

@[simp] theorem setPc_v (a : Word) (s : State) : (setPc a s).v = s.v := rfl
@[simp] theorem setPc_i (a : Word) (s : State) : (setPc a s).i = s.i := rfl
@[simp] theorem setPc_pc (a : Word) (s : State) : (setPc a s).pc = a := rfl
@[simp] theorem setPc_sp (a : Word) (s : State) : (setPc a s).sp = s.sp := rfl
@[simp] theorem setPc_stack (a : Word) (s : State) : (setPc a s).stack = s.stack := rfl
@[simp] theorem setPc_dt (a : Word) (s : State) : (setPc a s).dt = s.dt := rfl
@[simp] theorem setPc_st (a : Word) (s : State) : (setPc a s).st = s.st := rfl
@[simp] theorem setPc_tone (a : Word) (s : State) : (setPc a s).tone = s.tone := rfl
@[simp] theorem setPc_runState (a : Word) (s : State) : (setPc a s).runState = s.runState := rfl
@[simp] theorem setPc_faultCode (a : Word) (s : State) : (setPc a s).faultCode = s.faultCode := rfl
@[simp] theorem setPc_faultInfo (a : Word) (s : State) : (setPc a s).faultInfo = s.faultInfo := rfl
@[simp] theorem setPc_mem (a : Word) (s : State) : (setPc a s).mem = s.mem := rfl
@[simp] theorem setPc_fb (a : Word) (s : State) : (setPc a s).fb = s.fb := rfl
@[simp] theorem setPc_pulses (a : Word) (s : State) : (setPc a s).pulses = s.pulses := rfl
@[simp] theorem setPc_displayOpenIn (a : Word) (s : State) : (setPc a s).displayOpenIn = s.displayOpenIn := rfl
@[simp] theorem setPc_rndIn (a : Word) (s : State) : (setPc a s).rndIn = s.rndIn := rfl
@[simp] theorem setPc_draws (a : Word) (s : State) : (setPc a s).draws = s.draws := rfl

/-! ### raise -/

@[simp] theorem raise_v (e : Exn) (s : State) : (raise e s).v = s.v := rfl
@[simp] theorem raise_i (e : Exn) (s : State) : (raise e s).i = s.i := rfl
@[simp] theorem raise_pc (e : Exn) (s : State) : (raise e s).pc = s.pc := rfl
@[simp] theorem raise_sp (e : Exn) (s : State) : (raise e s).sp = s.sp := rfl
@[simp] theorem raise_stack (e : Exn) (s : State) : (raise e s).stack = s.stack := rfl
@[simp] theorem raise_dt (e : Exn) (s : State) : (raise e s).dt = s.dt := rfl
@[simp] theorem raise_st (e : Exn) (s : State) : (raise e s).st = s.st := rfl
@[simp] theorem raise_tone (e : Exn) (s : State) : (raise e s).tone = s.tone := rfl
@[simp] theorem raise_runState (e : Exn) (s : State) : (raise e s).runState = .faulted := rfl
@[simp] theorem raise_faultCode (e : Exn) (s : State) : (raise e s).faultCode = faultCodeOf e := rfl
@[simp] theorem raise_faultInfo (e : Exn) (s : State) : (raise e s).faultInfo = faultInfoOf e := rfl
@[simp] theorem raise_mem (e : Exn) (s : State) : (raise e s).mem = s.mem := rfl
@[simp] theorem raise_fb (e : Exn) (s : State) : (raise e s).fb = s.fb := rfl
@[simp] theorem raise_pulses (e : Exn) (s : State) : (raise e s).pulses = s.pulses := rfl
@[simp] theorem raise_displayOpenIn (e : Exn) (s : State) : (raise e s).displayOpenIn = s.displayOpenIn := rfl
@[simp] theorem raise_rndIn (e : Exn) (s : State) : (raise e s).rndIn = s.rndIn := rfl
@[simp] theorem raise_draws (e : Exn) (s : State) : (raise e s).draws = s.draws := rfl

/-! ### emit -/

@[simp] theorem emit_v (ps : List PortPulse) (s : State) : (emit ps s).v = s.v := rfl
@[simp] theorem emit_i (ps : List PortPulse) (s : State) : (emit ps s).i = s.i := rfl
@[simp] theorem emit_pc (ps : List PortPulse) (s : State) : (emit ps s).pc = s.pc := rfl
@[simp] theorem emit_sp (ps : List PortPulse) (s : State) : (emit ps s).sp = s.sp := rfl
@[simp] theorem emit_stack (ps : List PortPulse) (s : State) : (emit ps s).stack = s.stack := rfl
@[simp] theorem emit_dt (ps : List PortPulse) (s : State) : (emit ps s).dt = s.dt := rfl
@[simp] theorem emit_st (ps : List PortPulse) (s : State) : (emit ps s).st = s.st := rfl
@[simp] theorem emit_tone (ps : List PortPulse) (s : State) : (emit ps s).tone = s.tone := rfl
@[simp] theorem emit_runState (ps : List PortPulse) (s : State) : (emit ps s).runState = s.runState := rfl
@[simp] theorem emit_faultCode (ps : List PortPulse) (s : State) : (emit ps s).faultCode = s.faultCode := rfl
@[simp] theorem emit_faultInfo (ps : List PortPulse) (s : State) : (emit ps s).faultInfo = s.faultInfo := rfl
@[simp] theorem emit_mem (ps : List PortPulse) (s : State) : (emit ps s).mem = s.mem := rfl
@[simp] theorem emit_fb (ps : List PortPulse) (s : State) : (emit ps s).fb = s.fb := rfl
@[simp] theorem emit_pulses (ps : List PortPulse) (s : State) : (emit ps s).pulses = s.pulses ++ ps := rfl
@[simp] theorem emit_displayOpenIn (ps : List PortPulse) (s : State) : (emit ps s).displayOpenIn = s.displayOpenIn := rfl
@[simp] theorem emit_rndIn (ps : List PortPulse) (s : State) : (emit ps s).rndIn = s.rndIn := rfl
@[simp] theorem emit_draws (ps : List PortPulse) (s : State) : (emit ps s).draws = s.draws := rfl

/-! ### beginFrame -/

@[simp] theorem beginFrame_v (s : State) : (beginFrame s).v = s.v := rfl
@[simp] theorem beginFrame_i (s : State) : (beginFrame s).i = s.i := rfl
@[simp] theorem beginFrame_pc (s : State) : (beginFrame s).pc = s.pc := rfl
@[simp] theorem beginFrame_sp (s : State) : (beginFrame s).sp = s.sp := rfl
@[simp] theorem beginFrame_stack (s : State) : (beginFrame s).stack = s.stack := rfl
@[simp] theorem beginFrame_dt (s : State) : (beginFrame s).dt = s.dt := rfl
@[simp] theorem beginFrame_st (s : State) : (beginFrame s).st = s.st := rfl
@[simp] theorem beginFrame_tone (s : State) : (beginFrame s).tone = s.tone := rfl
@[simp] theorem beginFrame_runState (s : State) : (beginFrame s).runState = s.runState := rfl
@[simp] theorem beginFrame_faultCode (s : State) : (beginFrame s).faultCode = s.faultCode := rfl
@[simp] theorem beginFrame_faultInfo (s : State) : (beginFrame s).faultInfo = s.faultInfo := rfl
@[simp] theorem beginFrame_mem (s : State) : (beginFrame s).mem = s.mem := rfl
@[simp] theorem beginFrame_fb (s : State) : (beginFrame s).fb = s.fb := rfl
@[simp] theorem beginFrame_pulses (s : State) : (beginFrame s).pulses = [] := rfl
@[simp] theorem beginFrame_displayOpenIn (s : State) : (beginFrame s).displayOpenIn = s.displayOpenIn := rfl
@[simp] theorem beginFrame_rndIn (s : State) : (beginFrame s).rndIn = s.rndIn := rfl
@[simp] theorem beginFrame_draws (s : State) : (beginFrame s).draws = s.draws := rfl

/-! ### drawn -/

@[simp] theorem drawn_v (s : State) : (drawn s).v = s.v := rfl
@[simp] theorem drawn_i (s : State) : (drawn s).i = s.i := rfl
@[simp] theorem drawn_pc (s : State) : (drawn s).pc = s.pc := rfl
@[simp] theorem drawn_sp (s : State) : (drawn s).sp = s.sp := rfl
@[simp] theorem drawn_stack (s : State) : (drawn s).stack = s.stack := rfl
@[simp] theorem drawn_dt (s : State) : (drawn s).dt = s.dt := rfl
@[simp] theorem drawn_st (s : State) : (drawn s).st = s.st := rfl
@[simp] theorem drawn_tone (s : State) : (drawn s).tone = s.tone := rfl
@[simp] theorem drawn_runState (s : State) : (drawn s).runState = s.runState := rfl
@[simp] theorem drawn_faultCode (s : State) : (drawn s).faultCode = s.faultCode := rfl
@[simp] theorem drawn_faultInfo (s : State) : (drawn s).faultInfo = s.faultInfo := rfl
@[simp] theorem drawn_mem (s : State) : (drawn s).mem = s.mem := rfl
@[simp] theorem drawn_fb (s : State) : (drawn s).fb = s.fb := rfl
@[simp] theorem drawn_pulses (s : State) : (drawn s).pulses = s.pulses := rfl
@[simp] theorem drawn_displayOpenIn (s : State) : (drawn s).displayOpenIn = s.displayOpenIn := rfl
@[simp] theorem drawn_rndIn (s : State) : (drawn s).rndIn = s.rndIn.tail := rfl
@[simp] theorem drawn_draws (s : State) : (drawn s).draws = s.draws + 1 := rfl

/-! ### sampled -/

@[simp] theorem sampled_v (s : State) : (sampled s).v = s.v := rfl
@[simp] theorem sampled_i (s : State) : (sampled s).i = s.i := rfl
@[simp] theorem sampled_pc (s : State) : (sampled s).pc = s.pc := rfl
@[simp] theorem sampled_sp (s : State) : (sampled s).sp = s.sp := rfl
@[simp] theorem sampled_stack (s : State) : (sampled s).stack = s.stack := rfl
@[simp] theorem sampled_dt (s : State) : (sampled s).dt = s.dt := rfl
@[simp] theorem sampled_st (s : State) : (sampled s).st = s.st := rfl
@[simp] theorem sampled_tone (s : State) : (sampled s).tone = s.tone := rfl
@[simp] theorem sampled_runState (s : State) : (sampled s).runState = s.runState := rfl
@[simp] theorem sampled_faultCode (s : State) : (sampled s).faultCode = s.faultCode := rfl
@[simp] theorem sampled_faultInfo (s : State) : (sampled s).faultInfo = s.faultInfo := rfl
@[simp] theorem sampled_mem (s : State) : (sampled s).mem = s.mem := rfl
@[simp] theorem sampled_fb (s : State) : (sampled s).fb = s.fb := rfl
@[simp] theorem sampled_pulses (s : State) : (sampled s).pulses = s.pulses := rfl
@[simp] theorem sampled_displayOpenIn (s : State) : (sampled s).displayOpenIn = s.displayOpenIn.tail := rfl
@[simp] theorem sampled_rndIn (s : State) : (sampled s).rndIn = s.rndIn := rfl
@[simp] theorem sampled_draws (s : State) : (sampled s).draws = s.draws := rfl

/-! ### setRunState -/

@[simp] theorem setRunState_v (r : RunState) (s : State) : (setRunState r s).v = s.v := rfl
@[simp] theorem setRunState_i (r : RunState) (s : State) : (setRunState r s).i = s.i := rfl
@[simp] theorem setRunState_pc (r : RunState) (s : State) : (setRunState r s).pc = s.pc := rfl
@[simp] theorem setRunState_sp (r : RunState) (s : State) : (setRunState r s).sp = s.sp := rfl
@[simp] theorem setRunState_stack (r : RunState) (s : State) : (setRunState r s).stack = s.stack := rfl
@[simp] theorem setRunState_dt (r : RunState) (s : State) : (setRunState r s).dt = s.dt := rfl
@[simp] theorem setRunState_st (r : RunState) (s : State) : (setRunState r s).st = s.st := rfl
@[simp] theorem setRunState_tone (r : RunState) (s : State) : (setRunState r s).tone = s.tone := rfl
@[simp] theorem setRunState_runState (r : RunState) (s : State) : (setRunState r s).runState = r := rfl
@[simp] theorem setRunState_faultCode (r : RunState) (s : State) : (setRunState r s).faultCode = s.faultCode := rfl
@[simp] theorem setRunState_faultInfo (r : RunState) (s : State) : (setRunState r s).faultInfo = s.faultInfo := rfl
@[simp] theorem setRunState_mem (r : RunState) (s : State) : (setRunState r s).mem = s.mem := rfl
@[simp] theorem setRunState_fb (r : RunState) (s : State) : (setRunState r s).fb = s.fb := rfl
@[simp] theorem setRunState_pulses (r : RunState) (s : State) : (setRunState r s).pulses = s.pulses := rfl
@[simp] theorem setRunState_displayOpenIn (r : RunState) (s : State) : (setRunState r s).displayOpenIn = s.displayOpenIn := rfl
@[simp] theorem setRunState_rndIn (r : RunState) (s : State) : (setRunState r s).rndIn = s.rndIn := rfl
@[simp] theorem setRunState_draws (r : RunState) (s : State) : (setRunState r s).draws = s.draws := rfl

/-! ### setTimers -/

@[simp] theorem setTimers_v (d t : Byte) (s : State) : (setTimers d t s).v = s.v := rfl
@[simp] theorem setTimers_i (d t : Byte) (s : State) : (setTimers d t s).i = s.i := rfl
@[simp] theorem setTimers_pc (d t : Byte) (s : State) : (setTimers d t s).pc = s.pc := rfl
@[simp] theorem setTimers_sp (d t : Byte) (s : State) : (setTimers d t s).sp = s.sp := rfl
@[simp] theorem setTimers_stack (d t : Byte) (s : State) : (setTimers d t s).stack = s.stack := rfl
@[simp] theorem setTimers_dt (d t : Byte) (s : State) : (setTimers d t s).dt = d := rfl
@[simp] theorem setTimers_st (d t : Byte) (s : State) : (setTimers d t s).st = t := rfl
@[simp] theorem setTimers_tone (d t : Byte) (s : State) : (setTimers d t s).tone = s.tone := rfl
@[simp] theorem setTimers_runState (d t : Byte) (s : State) : (setTimers d t s).runState = s.runState := rfl
@[simp] theorem setTimers_faultCode (d t : Byte) (s : State) : (setTimers d t s).faultCode = s.faultCode := rfl
@[simp] theorem setTimers_faultInfo (d t : Byte) (s : State) : (setTimers d t s).faultInfo = s.faultInfo := rfl
@[simp] theorem setTimers_mem (d t : Byte) (s : State) : (setTimers d t s).mem = s.mem := rfl
@[simp] theorem setTimers_fb (d t : Byte) (s : State) : (setTimers d t s).fb = s.fb := rfl
@[simp] theorem setTimers_pulses (d t : Byte) (s : State) : (setTimers d t s).pulses = s.pulses := rfl
@[simp] theorem setTimers_displayOpenIn (d t : Byte) (s : State) : (setTimers d t s).displayOpenIn = s.displayOpenIn := rfl
@[simp] theorem setTimers_rndIn (d t : Byte) (s : State) : (setTimers d t s).rndIn = s.rndIn := rfl
@[simp] theorem setTimers_draws (d t : Byte) (s : State) : (setTimers d t s).draws = s.draws := rfl

/-! ### beep -/

@[simp] theorem beep_v (on : Bool) (s : State) : (beep on s).v = s.v := rfl
@[simp] theorem beep_i (on : Bool) (s : State) : (beep on s).i = s.i := rfl
@[simp] theorem beep_pc (on : Bool) (s : State) : (beep on s).pc = s.pc := rfl
@[simp] theorem beep_sp (on : Bool) (s : State) : (beep on s).sp = s.sp := rfl
@[simp] theorem beep_stack (on : Bool) (s : State) : (beep on s).stack = s.stack := rfl
@[simp] theorem beep_dt (on : Bool) (s : State) : (beep on s).dt = s.dt := rfl
@[simp] theorem beep_st (on : Bool) (s : State) : (beep on s).st = s.st := rfl
@[simp] theorem beep_tone (on : Bool) (s : State) : (beep on s).tone = on := rfl
@[simp] theorem beep_runState (on : Bool) (s : State) : (beep on s).runState = s.runState := rfl
@[simp] theorem beep_faultCode (on : Bool) (s : State) : (beep on s).faultCode = s.faultCode := rfl
@[simp] theorem beep_faultInfo (on : Bool) (s : State) : (beep on s).faultInfo = s.faultInfo := rfl
@[simp] theorem beep_mem (on : Bool) (s : State) : (beep on s).mem = s.mem := rfl
@[simp] theorem beep_fb (on : Bool) (s : State) : (beep on s).fb = s.fb := rfl
@[simp] theorem beep_pulses (on : Bool) (s : State) : (beep on s).pulses = s.pulses ++ [if on then .beepStart else .beepStop] := rfl
@[simp] theorem beep_displayOpenIn (on : Bool) (s : State) : (beep on s).displayOpenIn = s.displayOpenIn := rfl
@[simp] theorem beep_rndIn (on : Bool) (s : State) : (beep on s).rndIn = s.rndIn := rfl
@[simp] theorem beep_draws (on : Bool) (s : State) : (beep on s).draws = s.draws := rfl

/-! ### setFb -/

@[simp] theorem setFb_v (fb : Framebuffer) (ps : List PortPulse) (s : State) : (setFb fb ps s).v = s.v := rfl
@[simp] theorem setFb_i (fb : Framebuffer) (ps : List PortPulse) (s : State) : (setFb fb ps s).i = s.i := rfl
@[simp] theorem setFb_pc (fb : Framebuffer) (ps : List PortPulse) (s : State) : (setFb fb ps s).pc = s.pc := rfl
@[simp] theorem setFb_sp (fb : Framebuffer) (ps : List PortPulse) (s : State) : (setFb fb ps s).sp = s.sp := rfl
@[simp] theorem setFb_stack (fb : Framebuffer) (ps : List PortPulse) (s : State) : (setFb fb ps s).stack = s.stack := rfl
@[simp] theorem setFb_dt (fb : Framebuffer) (ps : List PortPulse) (s : State) : (setFb fb ps s).dt = s.dt := rfl
@[simp] theorem setFb_st (fb : Framebuffer) (ps : List PortPulse) (s : State) : (setFb fb ps s).st = s.st := rfl
@[simp] theorem setFb_tone (fb : Framebuffer) (ps : List PortPulse) (s : State) : (setFb fb ps s).tone = s.tone := rfl
@[simp] theorem setFb_runState (fb : Framebuffer) (ps : List PortPulse) (s : State) : (setFb fb ps s).runState = s.runState := rfl
@[simp] theorem setFb_faultCode (fb : Framebuffer) (ps : List PortPulse) (s : State) : (setFb fb ps s).faultCode = s.faultCode := rfl
@[simp] theorem setFb_faultInfo (fb : Framebuffer) (ps : List PortPulse) (s : State) : (setFb fb ps s).faultInfo = s.faultInfo := rfl
@[simp] theorem setFb_mem (fb : Framebuffer) (ps : List PortPulse) (s : State) : (setFb fb ps s).mem = s.mem := rfl
@[simp] theorem setFb_fb (fb : Framebuffer) (ps : List PortPulse) (s : State) : (setFb fb ps s).fb = fb := rfl
@[simp] theorem setFb_pulses (fb : Framebuffer) (ps : List PortPulse) (s : State) : (setFb fb ps s).pulses = s.pulses ++ ps := rfl
@[simp] theorem setFb_displayOpenIn (fb : Framebuffer) (ps : List PortPulse) (s : State) : (setFb fb ps s).displayOpenIn = s.displayOpenIn := rfl
@[simp] theorem setFb_rndIn (fb : Framebuffer) (ps : List PortPulse) (s : State) : (setFb fb ps s).rndIn = s.rndIn := rfl
@[simp] theorem setFb_draws (fb : Framebuffer) (ps : List PortPulse) (s : State) : (setFb fb ps s).draws = s.draws := rfl

/-! ### dispClear -/

@[simp] theorem dispClear_v (s : State) : (dispClear s).v = s.v := rfl
@[simp] theorem dispClear_i (s : State) : (dispClear s).i = s.i := rfl
@[simp] theorem dispClear_pc (s : State) : (dispClear s).pc = s.pc := rfl
@[simp] theorem dispClear_sp (s : State) : (dispClear s).sp = s.sp := rfl
@[simp] theorem dispClear_stack (s : State) : (dispClear s).stack = s.stack := rfl
@[simp] theorem dispClear_dt (s : State) : (dispClear s).dt = s.dt := rfl
@[simp] theorem dispClear_st (s : State) : (dispClear s).st = s.st := rfl
@[simp] theorem dispClear_tone (s : State) : (dispClear s).tone = s.tone := rfl
@[simp] theorem dispClear_runState (s : State) : (dispClear s).runState = s.runState := rfl
@[simp] theorem dispClear_faultCode (s : State) : (dispClear s).faultCode = s.faultCode := rfl
@[simp] theorem dispClear_faultInfo (s : State) : (dispClear s).faultInfo = s.faultInfo := rfl
@[simp] theorem dispClear_mem (s : State) : (dispClear s).mem = s.mem := rfl
@[simp] theorem dispClear_fb (s : State) : (dispClear s).fb = clearedFb := rfl
@[simp] theorem dispClear_pulses (s : State) : (dispClear s).pulses = s.pulses ++ [.dispClear] := rfl
@[simp] theorem dispClear_displayOpenIn (s : State) : (dispClear s).displayOpenIn = s.displayOpenIn := rfl
@[simp] theorem dispClear_rndIn (s : State) : (dispClear s).rndIn = s.rndIn := rfl
@[simp] theorem dispClear_draws (s : State) : (dispClear s).draws = s.draws := rfl

/-! ### tick -/

@[simp] theorem tick_v (s : State) : (tick s).v = s.v := rfl
@[simp] theorem tick_i (s : State) : (tick s).i = s.i := rfl
@[simp] theorem tick_pc (s : State) : (tick s).pc = s.pc := rfl
@[simp] theorem tick_sp (s : State) : (tick s).sp = s.sp := rfl
@[simp] theorem tick_stack (s : State) : (tick s).stack = s.stack := rfl
@[simp] theorem tick_dt (s : State) : (tick s).dt = countDown s.dt := rfl
@[simp] theorem tick_st (s : State) : (tick s).st = countDown s.st := rfl
@[simp] theorem tick_tone (s : State) : (tick s).tone = (s.st != 0) := rfl
@[simp] theorem tick_runState (s : State) : (tick s).runState = s.runState := rfl
@[simp] theorem tick_faultCode (s : State) : (tick s).faultCode = s.faultCode := rfl
@[simp] theorem tick_faultInfo (s : State) : (tick s).faultInfo = s.faultInfo := rfl
@[simp] theorem tick_mem (s : State) : (tick s).mem = s.mem := rfl
@[simp] theorem tick_fb (s : State) : (tick s).fb = s.fb := rfl
@[simp] theorem tick_pulses (s : State) : (tick s).pulses = s.pulses ++ [if (s.st != 0) then .beepStart else .beepStop] := rfl
@[simp] theorem tick_displayOpenIn (s : State) : (tick s).displayOpenIn = s.displayOpenIn := rfl
@[simp] theorem tick_rndIn (s : State) : (tick s).rndIn = s.rndIn := rfl
@[simp] theorem tick_draws (s : State) : (tick s).draws = s.draws := rfl

end Sys2Proof.Machine
end

