-- ==== Sys2Proof/Laws/Ops.lean ====
section
/-! SUPPORT. One lemma for each shared operation that says everything it can do; the provers cite these and do not unfold
the operations. -/

namespace Sys2Proof.Machine

/-! ### Registers (10_state.md R10) -/

@[simp] theorem readV_writeV_self (x : RegIdx) (b : Byte) (s : State) : readV (writeV x b s) x = b := by
  simp [readV]

theorem readV_writeV_ne {x y : RegIdx} (h : y ≠ x) (b : Byte) (s : State) : readV (writeV x b s) y = readV s y := by
  have : x.val ≠ y.val := fun e => h (Fin.ext e.symm)
  simp [readV, this]

theorem readV_writeV (x y : RegIdx) (b : Byte) (s : State) :
    readV (writeV x b s) y = if y = x then b else readV s y := by
  split
  · next h => subst h; simp
  · next h => exact readV_writeV_ne h b s

/-- Reading a register sees only the register file. -/
theorem readV_congr {s t : State} (h : t.v = s.v) (x : RegIdx) : readV t x = readV s x := by
  simp [readV, h]

@[simp] theorem readV_setPc (a : Word) (s : State) (x : RegIdx) : readV (setPc a s) x = readV s x := rfl
@[simp] theorem readV_setI (a : Word) (s : State) (x : RegIdx) : readV (setI a s) x = readV s x := rfl
@[simp] theorem readV_raise (e : Exn) (s : State) (x : RegIdx) : readV (raise e s) x = readV s x := rfl
@[simp] theorem readV_emit (ps : List PortPulse) (s : State) (x : RegIdx) : readV (emit ps s) x = readV s x := rfl
@[simp] theorem readV_drawn (s : State) (x : RegIdx) : readV (drawn s) x = readV s x := rfl
@[simp] theorem readV_setTimers (d t : Byte) (s : State) (x : RegIdx) : readV (setTimers d t s) x = readV s x := rfl
@[simp] theorem readV_setFb (fb : Framebuffer) (ps : List PortPulse) (s : State) (x : RegIdx) :
    readV (setFb fb ps s) x = readV s x := rfl
@[simp] theorem readV_dispClear (s : State) (x : RegIdx) : readV (dispClear s) x = readV s x := rfl
@[simp] theorem readV_tick (s : State) (x : RegIdx) : readV (tick s) x = readV s x := rfl
@[simp] theorem readV_beginFrame (s : State) (x : RegIdx) : readV (beginFrame s) x = readV s x := rfl
@[simp] theorem readV_sampled (s : State) (x : RegIdx) : readV (sampled s) x = readV s x := rfl

/-! ### The call stack (10_state.md R20) -/

/-- Everything a push can do. -/
theorem push_cases (a : Word) (s : State) :
    (∃ h : s.sp.val < 16, push a s =
      .ok { s with stack := s.stack.set s.sp.val a h, sp := ⟨s.sp.val + 1, Nat.succ_lt_succ h⟩ }) ∨
    (s.sp.val = 16 ∧ push a s = .error .stackOverflow) := by
  by_cases h : s.sp.val < 16
  · exact .inl ⟨h, by simp [push, h]⟩
  · exact .inr ⟨by have := s.sp.isLt; omega, by simp [push, h]⟩

/-- Everything a pop can do. -/
theorem pop_cases (s : State) :
    (∃ h : 0 < s.sp.val, pop s =
      .ok (s.stack[s.sp.val - 1]'(by have := s.sp.isLt; omega),
        { s with sp := ⟨s.sp.val - 1, by have := s.sp.isLt; omega⟩ })) ∨
    (s.sp.val = 0 ∧ pop s = .error .stackUnderflow) := by
  by_cases h : s.sp.val = 0
  · exact .inr ⟨h, by simp [pop, h]⟩
  · exact .inl ⟨by omega, by simp only [pop, h, dite_false]⟩

/-! ### `MemRead` (20_memory.md R46) -/

/-- Everything a one-byte read can do. -/
theorem memRead1_cases (s : State) (a : Word) :
    (a.toNat ≤ 0xFFF ∧ memRead1 s a = .ok (readCell s.mem a.toNat)) ∨
    (0xFFF < a.toNat ∧ memRead1 s a = .error (.addressOutOfRange a)) := by
  by_cases h : a.toNat < 4096
  · exact .inl ⟨by omega, by simp [memRead1, h]⟩
  · exact .inr ⟨by omega, by simp [memRead1, firstBadAddr, h]⟩

/-- Everything a two-byte read can do. -/
theorem memRead2_cases (s : State) (a : Word) :
    (a.toNat ≤ 0xFFE ∧
      memRead2 s a = .ok (wordOfBytes (readCell s.mem a.toNat) (readCell s.mem (a.toNat + 1)))) ∨
    (0xFFE < a.toNat ∧ memRead2 s a = .error (.addressOutOfRange (if a = 0xFFF then 0x1000 else a))) := by
  by_cases h : a.toNat + 1 < 4096
  · exact .inl ⟨by omega, by simp [memRead2, h]⟩
  · refine .inr ⟨by omega, ?_⟩
    by_cases h' : a = 0xFFF
    · simp [memRead2, firstBadAddr, h']
    · have : ¬ a.toNat < 4096 := fun hl => h' (BitVec.eq_of_toNat_eq (by simp; omega))
      simp [memRead2, firstBadAddr, h, this]
      exact fun e => absurd e h'

/-! ### Faults (60_exceptions.md R151) -/

theorem faultCodeOf_ne_zero (e : Exn) : faultCodeOf e ≠ 0 := by cases e <;> simp [faultCodeOf]

theorem faultCodeOf_le (e : Exn) : (faultCodeOf e).toNat ≤ 4 := by cases e <;> simp [faultCodeOf]

/-! ### The host's inputs -/

@[simp] theorem draw8_cons {s : State} {b : Byte} {rest : List Byte} (h : s.rndIn = b :: rest) : draw8 s = b := by
  simp [draw8, h]

@[simp] theorem displayOpen_cons {s : State} {b : Bool} {rest : List Bool} (h : s.displayOpenIn = b :: rest) :
    displayOpen s = b := by
  simp [displayOpen, h]

@[simp] theorem displayOpen_nil {s : State} (h : s.displayOpenIn = []) : displayOpen s = true := by
  simp [displayOpen, h]

/-! ### Arithmetic (43_alu.md R115 to R120) -/

theorem wrapAdd_toNat (a b : Byte) : (wrapAdd a b).toNat = (a.toNat + b.toNat) % 256 := by
  simp [wrapAdd, exactSum]

theorem wrapSub_toNat (a b : Byte) : (wrapSub a b).toNat = (256 + a.toNat - b.toNat) % 256 := by
  have := b.isLt
  simp only [wrapSub, BitVec.toNat_sub]
  omega

theorem shiftRight1_toNat (a : Byte) : (shiftRight1 a).toNat = a.toNat / 2 := by
  simp [shiftRight1, Nat.shiftRight_eq_div_pow]

theorem shiftLeft1_toNat (a : Byte) : (shiftLeft1 a).toNat = (2 * a.toNat) % 256 := by
  simp only [shiftLeft1, BitVec.toNat_shiftLeft, Nat.shiftLeft_eq]
  omega

theorem countDown_toNat (c : Byte) : (countDown c).toNat = c.toNat - 1 := by
  unfold countDown
  split
  · next h => simp [h]
  · next h =>
    have hlt := c.isLt
    have h0 : c.toNat ≠ 0 := fun e => h (BitVec.eq_of_toNat_eq (by simpa using e))
    simp only [BitVec.toNat_sub]
    simp
    omega

theorem addrOperand_toNat (nnn : Addr12) : (addrOperand nnn).toNat = nnn.toNat := by
  have := nnn.isLt
  simp only [addrOperand, BitVec.toNat_setWidth]
  omega

/-- The indexed target never leaves 16 bits (40_flow.md R83). -/
theorem indexedTarget_toNat (nnn : Addr12) (v0 : Byte) : (indexedTarget nnn v0).toNat = nnn.toNat + v0.toNat := by
  have h1 := nnn.isLt
  have h2 := v0.isLt
  simp only [indexedTarget, BitVec.toNat_add, addrOperand_toNat, BitVec.toNat_setWidth]
  omega

end Sys2Proof.Machine
end

