-- ==== Sys2Proof/Laws/Framebuffer.lean ====
section
/-! SUPPORT. The Display's contract as laws of `getPixel` and `setPixel`, and what a blit over a list of pixels leaves
(60_exceptions.md R167 to R169, 44_display.md R131, R132). -/

namespace Sys2Proof.Machine

theorem getLsbD_rowWith (row : BitVec 64) {x x' : Nat} (hx' : x' < 64) (on : Bool) :
    (rowWith row x on).getLsbD x' = if x' = x then on else row.getLsbD x' := by
  cases on <;> by_cases e : x' = x <;> (simp [rowWith, hx', e, BitVec.getLsbD_twoPow]; try omega)

@[simp] theorem getPixel_clearedFb {x y : Nat} (hx : x < 64) (hy : y < 32) : getPixel clearedFb x y = false := by
  simp [getPixel, clearedFb, hx, hy]

/-- A read after a set: the pixel set reads as `on`, every other pixel of the grid as before. -/
theorem getPixel_setPixel (fb : Framebuffer) {x y : Nat} (hx : x < 64) (hy : y < 32) (on : Bool) {x' y' : Nat}
    (hx' : x' < 64) (hy' : y' < 32) :
    getPixel (setPixel fb x y on) x' y' = if x' = x ∧ y' = y then on else getPixel fb x' y' := by
  have hset : setPixel fb x y on = fb.set y (rowWith fb[y] x on) hy := by simp [setPixel, hx, hy]
  have hget : ∀ f : Framebuffer, getPixel f x' y' = (f[y']'hy').getLsbD x' := fun f => by simp [getPixel, hx', hy']
  rw [hset, hget, hget]
  by_cases ey : y' = y
  · subst ey
    simp [getLsbD_rowWith _ hx']
  · have ey' : y ≠ y' := fun e => ey e.symm
    simp [ey, ey']

/-- A set outside the grid does nothing (60_exceptions.md R169). -/
theorem setPixel_outside (fb : Framebuffer) {x y : Nat} (h : ¬ (x < 64 ∧ y < 32)) (on : Bool) :
    setPixel fb x y on = fb := by
  simp only [setPixel, dif_neg h]

/-! ### The blit -/

/-- The pixel of the framebuffer at a grid position. -/
theorem getPixel_setPixel_pixel (fb : Framebuffer) (p q : Pixel) (on : Bool) :
    getPixel (setPixel fb p.px.val p.py.val on) q.px.val q.py.val =
      if q = p then on else getPixel fb q.px.val q.py.val := by
  rw [getPixel_setPixel fb p.px.isLt p.py.isLt on q.px.isLt q.py.isLt]
  have : (q.px.val = p.px.val ∧ q.py.val = p.py.val) ↔ q = p := by
    obtain ⟨a, b⟩ := q
    obtain ⟨c, d⟩ := p
    simp [Fin.ext_iff]
  simp only [this]

/-- What a blit over pixels without repeats leaves: the listed pixels inverted, the others alone (44_display.md R132
points 4, 8). -/
theorem xorBlit_fb {ps : List Pixel} (hn : ps.Nodup) (fb : Framebuffer) (q : Pixel) :
    getPixel (xorBlit ps fb).fb q.px.val q.py.val =
      if q ∈ ps then !getPixel fb q.px.val q.py.val else getPixel fb q.px.val q.py.val := by
  induction ps generalizing fb with
  | nil => simp [xorBlit]
  | cons p ps ih =>
    obtain ⟨hp, hn⟩ := List.nodup_cons.mp hn
    simp only [xorBlit]
    rw [ih hn, getPixel_setPixel_pixel]
    by_cases e : q = p
    · subst e
      simp [hp]
    · simp [e]

/-- A blit over pixels without repeats hits exactly when one of them was on (44_display.md R132 point 5). -/
theorem xorBlit_hit {ps : List Pixel} (hn : ps.Nodup) (fb : Framebuffer) :
    (xorBlit ps fb).hit = true ↔ ∃ p ∈ ps, getPixel fb p.px.val p.py.val = true := by
  induction ps generalizing fb with
  | nil => simp [xorBlit]
  | cons p ps ih =>
    obtain ⟨hp, hn⟩ := List.nodup_cons.mp hn
    simp only [xorBlit, Bool.or_eq_true, ih hn, List.mem_cons, exists_eq_or_imp]
    refine or_congr Iff.rfl (exists_congr fun q => and_congr_right fun hq => ?_)
    have : q ≠ p := fun e => hp (e ▸ hq)
    rw [getPixel_setPixel_pixel, if_neg this]

/-- The Display calls of a blit over pixels without repeats, each get answered with the pixel as it stood at first. -/
theorem xorBlit_calls {ps : List Pixel} (hn : ps.Nodup) (fb : Framebuffer) :
    (xorBlit ps fb).calls = ps.flatMap (fun p =>
      [.dispGet p (getPixel fb p.px.val p.py.val), .dispSet p (!getPixel fb p.px.val p.py.val)]) := by
  induction ps generalizing fb with
  | nil => rfl
  | cons p ps ih =>
    obtain ⟨hp, hn⟩ := List.nodup_cons.mp hn
    simp only [xorBlit, ih hn, List.flatMap_cons, List.cons_append, List.nil_append]
    refine congrArg _ (congrArg _ (List.flatMap_congr fun q hq => ?_))
    have : q ≠ p := fun e => hp (e ▸ hq)
    rw [getPixel_setPixel_pixel, if_neg this]

/-- A blit makes only `disp_get` and `disp_set` calls. -/
theorem mem_xorBlit_calls {ps : List Pixel} {fb : Framebuffer} {c : PortPulse} (h : c ∈ (xorBlit ps fb).calls) :
    (∃ p b, c = .dispGet p b) ∨ ∃ p b, c = .dispSet p b := by
  induction ps generalizing fb with
  | nil => simp [xorBlit] at h
  | cons p ps ih =>
    simp only [xorBlit, List.mem_cons] at h
    rcases h with rfl | rfl | h
    · exact .inl ⟨_, _, rfl⟩
    · exact .inr ⟨_, _, rfl⟩
    · exact ih h

/-! ### The pixels of a sprite (44_display.md R132) -/

/-- Two offsets inside one sprite land on one pixel only if they are the same offset (44_display.md R132 point 8). -/
theorem spritePixel_inj {vx vy : Byte} {r c r' c' : Nat} (hr : r < 32) (hr' : r' < 32) (hc : c < 8) (hc' : c' < 8)
    (h : spritePixel vx vy r c = spritePixel vx vy r' c') : r = r' ∧ c = c' := by
  simp only [spritePixel, Pixel.mk.injEq, Fin.ext_iff, Fin.ofNat] at h
  omega

theorem mem_rowPixels {vx vy : Byte} {r : Nat} {row : Byte} {p : Pixel} :
    p ∈ rowPixels vx vy r row ↔ ∃ c, c < 8 ∧ spriteBit row c = true ∧ spritePixel vx vy r c = p := by
  simp [rowPixels, and_assoc]

/-- The listed pixels of a sprite are those some 1 bit lands on. -/
theorem mem_spritePixels {m : Memory} {base n : Nat} {vx vy : Byte} {p : Pixel} :
    p ∈ spritePixels m base n vx vy ↔
      ∃ r c, r < n ∧ c < 8 ∧ spriteBit (readCell m (base + r)) c = true ∧ spritePixel vx vy r c = p := by
  simp only [spritePixels, List.mem_flatMap, List.mem_range, mem_rowPixels]
  constructor
  · rintro ⟨r, hr, c, hc⟩
    exact ⟨r, c, hr, hc⟩
  · rintro ⟨r, c, hr, hc⟩
    exact ⟨r, hr, c, hc⟩

/-- No two 1 bits of a sprite of at most 32 rows land on one pixel (44_display.md R132 point 8). -/
theorem spritePixels_nodup (m : Memory) (base : Nat) {n : Nat} (hn : n ≤ 32) (vx vy : Byte) :
    (spritePixels m base n vx vy).Nodup := by
  rw [spritePixels, List.nodup_flatMap]
  constructor
  · intro r hr
    have hr' := List.mem_range.mp hr
    refine (List.nodup_map_iff_inj_on (List.nodup_range.filter _)).mpr ?_
    intro c hc c' hc' e
    have h1 := List.mem_range.mp (List.mem_filter.mp hc).1
    have h2 := List.mem_range.mp (List.mem_filter.mp hc').1
    exact (spritePixel_inj (by omega) (by omega) h1 h2 e).2
  · refine List.Pairwise.imp_of_mem (R := (· ≠ ·)) ?_ (List.nodup_range (n := n))
    intro r r' hr hr' hne p hp hp'
    obtain ⟨c, hc, -, e⟩ := mem_rowPixels.mp hp
    obtain ⟨c', hc', -, e'⟩ := mem_rowPixels.mp hp'
    have h1 := List.mem_range.mp hr
    have h2 := List.mem_range.mp hr'
    exact hne (spritePixel_inj (by omega) (by omega) hc hc' (e.trans e'.symm)).1

end Sys2Proof.Machine
end

