-- ==== Sys2Proof/Laws/Memory.lean ====
section
/-! SUPPORT. Memory: reading after writing, and every operation keeps the canonical form (20_memory.md R40, R42). -/

namespace Sys2Proof.Machine

/-- A read after a write: the written cell gives the byte, every other cell is as before. -/
theorem readCell_writeCell {m : Memory} {lo : Nat} (h : wfFrom lo m = true) (a : Nat) (b : Byte) (a' : Nat) :
    readCell (writeCell m a b) a' = if a' = a then b else readCell m a' := by
  induction m generalizing lo with
  | nil =>
    simp only [writeCell]
    by_cases hb : b = resetByte a
    · simp only [hb, if_true, readCell]
      split
      · next e => rw [e]
      · rfl
    · simp only [hb, if_false, readCell]
      by_cases e : a' = a
      · simp [e]
      · simp [e, Ne.symm e]
  | cons kc m ih =>
    obtain ⟨k, c⟩ := kc
    simp only [wfFrom, Bool.and_eq_true, decide_eq_true_eq] at h
    obtain ⟨⟨⟨_, _⟩, _⟩, hm⟩ := h
    have below : ∀ {n : Nat} {l : Memory} {lo' : Nat}, wfFrom lo' l = true → n < lo' → readCell l n = resetByte n := by
      intro n l
      induction l with
      | nil => intros; rfl
      | cons jd l ihl =>
        obtain ⟨j, d⟩ := jd
        intro lo' hl hn
        simp only [wfFrom, Bool.and_eq_true, decide_eq_true_eq] at hl
        obtain ⟨⟨⟨h1, _⟩, _⟩, h4⟩ := hl
        have : j ≠ n := by omega
        simp only [readCell, this, if_false]
        exact ihl h4 (by omega)
    simp only [writeCell]
    by_cases h1 : a < k
    · by_cases hb : b = resetByte a
      · simp only [h1, if_true, hb]
        by_cases e : a' = a
        · subst e
          have : k ≠ a' := by omega
          simp only [readCell, this, if_false, if_true]
          exact below hm (by omega)
        · simp [e]
      · simp only [h1, if_true, hb, if_false]
        by_cases e : a' = a
        · simp [readCell, e]
        · simp [readCell, e, Ne.symm e]
    · simp only [h1, if_false]
      by_cases h2 : a = k
      · subst h2
        by_cases hb : b = resetByte a
        · simp only [hb, if_true]
          by_cases e : a' = a
          · subst e
            simp only [if_true]
            exact below hm (by omega)
          · simp [readCell, e, Ne.symm e]
        · simp only [hb, if_true, if_false]
          by_cases e : a' = a
          · simp [readCell, e]
          · simp [readCell, e, Ne.symm e]
      · simp only [h2, if_false, readCell]
        by_cases e : k = a'
        · have : a' ≠ a := by omega
          simp [e, this]
        · simp only [e, if_false]
          exact ih hm

theorem wfFrom_mono {m : Memory} {lo lo' : Nat} (h : wfFrom lo m = true) (hl : lo' ≤ lo) : wfFrom lo' m = true := by
  cases m with
  | nil => rfl
  | cons kc m =>
    obtain ⟨k, c⟩ := kc
    simp only [wfFrom, Bool.and_eq_true, decide_eq_true_eq] at h ⊢
    obtain ⟨⟨⟨h1, h2⟩, h3⟩, h4⟩ := h
    exact ⟨⟨⟨by omega, h2⟩, h3⟩, h4⟩

theorem wfFrom_writeCell {m : Memory} {lo : Nat} (h : wfFrom lo m = true) {a : Nat} (ha : a < 4096) (hlo : lo ≤ a)
    (b : Byte) : wfFrom lo (writeCell m a b) = true := by
  induction m generalizing lo with
  | nil =>
    simp only [writeCell]
    split
    · rfl
    · next hb => simp [wfFrom, hlo, ha, hb]
  | cons kc m ih =>
    obtain ⟨k, c⟩ := kc
    have h0 := h
    simp only [wfFrom, Bool.and_eq_true, decide_eq_true_eq] at h
    obtain ⟨⟨⟨h1, h2⟩, h3⟩, h4⟩ := h
    simp only [writeCell]
    by_cases hk : a < k
    · simp only [hk, if_true]
      split
      · exact h0
      · next hb =>
        simp only [wfFrom, Bool.and_eq_true, decide_eq_true_eq]
        exact ⟨⟨⟨hlo, ha⟩, hb⟩, ⟨⟨⟨by omega, h2⟩, h3⟩, h4⟩⟩
    · simp only [hk, if_false]
      by_cases he : a = k
      · simp only [he, if_true]
        split
        · exact wfFrom_mono h4 (by omega)
        · next hb =>
          simp only [wfFrom, Bool.and_eq_true, decide_eq_true_eq]
          exact ⟨⟨⟨h1, h2⟩, hb⟩, h4⟩
      · simp only [he, if_false, wfFrom, Bool.and_eq_true, decide_eq_true_eq]
        exact ⟨⟨⟨h1, h2⟩, h3⟩, ih h4 (by omega)⟩

/-- A write keeps the canonical form. -/
theorem writeCell_wf {m : Memory} (h : m.wf = true) {a : Nat} (ha : a < 4096) (b : Byte) :
    Memory.wf (writeCell m a b) = true :=
  wfFrom_writeCell h ha (Nat.zero_le a) b

/-- A write to memory in canonical form, read back. -/
theorem readCell_writeCell_wf {m : Memory} (h : m.wf = true) (a : Nat) (b : Byte) (a' : Nat) :
    readCell (writeCell m a b) a' = if a' = a then b else readCell m a' :=
  readCell_writeCell h a b a'

/-- A run of writes keeps the canonical form. -/
theorem storeBytes_wf {m : Memory} (h : m.wf = true) {a : Nat} {bs : List Byte} (ha : a + bs.length ≤ 4096) :
    (storeBytes m a bs).wf = true := by
  induction bs generalizing m a with
  | nil => exact h
  | cons b bs ih =>
    simp only [List.length_cons] at ha
    exact ih (writeCell_wf h (by omega) b) (by omega)

/-- What a run of writes leaves in every cell. -/
theorem readCell_storeBytes {m : Memory} (h : m.wf = true) {a : Nat} {bs : List Byte} (ha : a + bs.length ≤ 4096)
    (a' : Nat) :
    readCell (storeBytes m a bs) a' =
      if a ≤ a' ∧ a' < a + bs.length then bs.getD (a' - a) 0 else readCell m a' := by
  induction bs generalizing m a with
  | nil =>
    have : ¬ (a ≤ a' ∧ a' < a + ([] : List Byte).length) := by simp only [List.length_nil]; omega
    simp only [storeBytes, if_neg this]
  | cons b bs ih =>
    simp only [List.length_cons] at ha ⊢
    simp only [storeBytes]
    rw [ih (writeCell_wf h (by omega) b) (by omega), readCell_writeCell_wf h]
    by_cases e : a' = a
    · subst e
      simp
    · by_cases hin : a + 1 ≤ a' ∧ a' < a + 1 + bs.length
      · have h2 : a ≤ a' ∧ a' < a + (bs.length + 1) := by omega
        have h3 : a' - a = (a' - (a + 1)) + 1 := by omega
        simp only [if_pos hin, if_pos h2, h3, List.getD_cons_succ]
      · have h2 : ¬ (a ≤ a' ∧ a' < a + (bs.length + 1)) := by omega
        simp only [if_neg hin, if_neg h2, if_neg e]

/-- The reset memory is in canonical form. -/
theorem reset_mem_wf : State.reset.mem.wf = true := rfl

/-- The loader answers memory in canonical form. -/
theorem build_wf {font : Vector Byte 80} {program : List Byte} {m : Memory} (h : build font program = .ok m) :
    m.wf = true := by
  unfold build at h
  split at h
  · next hl =>
    cases h
    have hf : font.toList.length = 80 := by simp
    exact storeBytes_wf (storeBytes_wf rfl (by simp)) (by simp only [Config.progBase, Config.progMax] at *; omega)
  · cases h

/-- Placing an instruction word keeps the canonical form. -/
theorem placeWord_mem_wf {s : State} (h : s.mem.wf = true) (w : Word) : (placeWord w s).mem.wf = true := by
  refine storeBytes_wf h ?_
  simp only [placeAddr, Config.memSize, List.length_cons, List.length_nil]
  split
  · next hp => omega
  · decide

end Sys2Proof.Machine
end

