-- ==== Sys2Proof/Laws/PerInstr.lean ====
section
/-! SUPPORT. The families of per-instruction laws named in LAWS.json: `WellFormedTerm`, every term of `Instr` is well
formed (30_encoding.md R62), and `RowSelected`, the encoding of an instruction selects its own row of the opcode map and
so is a legal word (30_encoding.md R64, R66). -/

namespace Sys2Proof.Laws.WellFormedTerm

/-- The instruction's operands fit their fields. -/
def Statement (i : Instr) : Prop := i.wf = true

theorem fits_reg (r : RegIdx) : (Operand.reg r).fits = true := by
  simp [Operand.fits, Operand.reg]

theorem fits_imm (kk : Byte) : (Operand.imm kk).fits = true := by
  exact decide_eq_true kk.isLt

theorem fits_addr (nnn : Addr12) : (Operand.addr nnn).fits = true := by
  exact decide_eq_true nnn.isLt

theorem fits_rows (n : Fin 16) : (Operand.rows n).fits = true := by
  simp [Operand.fits, Operand.rows]

theorem width_reg (r : RegIdx) : (Operand.reg r).width = 4 := rfl
theorem width_imm (kk : Byte) : (Operand.imm kk).width = 8 := rfl
theorem width_addr (nnn : Addr12) : (Operand.addr nnn).width = 12 := rfl
theorem width_rows (n : Fin 16) : (Operand.rows n).width = 4 := rfl

theorem one_addr (nnn : Addr12) : operandsWf [.addr nnn] = true := by
  simp [operandsWf, fits_addr, width_addr]

theorem reg_imm (x : RegIdx) (kk : Byte) : operandsWf [.reg x, .imm kk] = true := by
  simp [operandsWf, fits_reg, fits_imm, width_reg, width_imm]

theorem reg_reg (x y : RegIdx) : operandsWf [.reg x, .reg y] = true := by
  simp [operandsWf, fits_reg, width_reg]

theorem reg_reg_rows (x y : RegIdx) (n : Fin 16) : operandsWf [.reg x, .reg y, .rows n] = true := by
  simp [operandsWf, fits_reg, fits_rows, width_reg, width_rows]

theorem cls : Statement .cls := rfl
theorem ret : Statement .ret := rfl
theorem jp (nnn : Addr12) : Statement (.jp nnn) := one_addr nnn
theorem call (nnn : Addr12) : Statement (.call nnn) := one_addr nnn
theorem se (x : RegIdx) (kk : Byte) : Statement (.se x kk) := reg_imm x kk
theorem sne (x : RegIdx) (kk : Byte) : Statement (.sne x kk) := reg_imm x kk
theorem seReg (x y : RegIdx) : Statement (.seReg x y) := reg_reg x y
theorem ld (x : RegIdx) (kk : Byte) : Statement (.ld x kk) := reg_imm x kk
theorem add (x : RegIdx) (kk : Byte) : Statement (.add x kk) := reg_imm x kk
theorem ldReg (x y : RegIdx) : Statement (.ldReg x y) := reg_reg x y
theorem or (x y : RegIdx) : Statement (.or x y) := reg_reg x y
theorem and (x y : RegIdx) : Statement (.and x y) := reg_reg x y
theorem xor (x y : RegIdx) : Statement (.xor x y) := reg_reg x y
theorem addReg (x y : RegIdx) : Statement (.addReg x y) := reg_reg x y
theorem sub (x y : RegIdx) : Statement (.sub x y) := reg_reg x y
theorem shr (x y : RegIdx) : Statement (.shr x y) := reg_reg x y
theorem subn (x y : RegIdx) : Statement (.subn x y) := reg_reg x y
theorem shl (x y : RegIdx) : Statement (.shl x y) := reg_reg x y
theorem sneReg (x y : RegIdx) : Statement (.sneReg x y) := reg_reg x y
theorem ldI (nnn : Addr12) : Statement (.ldI nnn) := one_addr nnn
theorem jpV0 (nnn : Addr12) : Statement (.jpV0 nnn) := one_addr nnn
theorem rnd (x : RegIdx) (kk : Byte) : Statement (.rnd x kk) := reg_imm x kk
theorem drw (x y : RegIdx) (n : Fin 16) : Statement (.drw x y n) := reg_reg_rows x y n

end Sys2Proof.Laws.WellFormedTerm

namespace Sys2Proof.Laws.RowSelected

/-- The row of the opcode map that carries the instruction (30_encoding.md R66): mask and match. -/
def rowOf : Instr → Word × Word
  | .cls => (0xFFFF, 0x00E0)
  | .ret => (0xFFFF, 0x00EE)
  | .jp _ => (0xF000, 0x1000)
  | .call _ => (0xF000, 0x2000)
  | .se _ _ => (0xF000, 0x3000)
  | .sne _ _ => (0xF000, 0x4000)
  | .seReg _ _ => (0xF00F, 0x5000)
  | .ld _ _ => (0xF000, 0x6000)
  | .add _ _ => (0xF000, 0x7000)
  | .ldReg _ _ => (0xF00F, 0x8000)
  | .or _ _ => (0xF00F, 0x8001)
  | .and _ _ => (0xF00F, 0x8002)
  | .xor _ _ => (0xF00F, 0x8003)
  | .addReg _ _ => (0xF00F, 0x8004)
  | .sub _ _ => (0xF00F, 0x8005)
  | .shr _ _ => (0xF00F, 0x8006)
  | .subn _ _ => (0xF00F, 0x8007)
  | .shl _ _ => (0xF00F, 0x800E)
  | .sneReg _ _ => (0xF00F, 0x9000)
  | .ldI _ => (0xF000, 0xA000)
  | .jpV0 _ => (0xF000, 0xB000)
  | .rnd _ _ => (0xF000, 0xC000)
  | .drw _ _ _ => (0xF000, 0xD000)

/-- The encoding selects the instruction's row. -/
def Statement (i : Instr) : Prop := encode i &&& (rowOf i).1 = (rowOf i).2

/-- Masking with F000 keeps the op-group and clears the rest. -/
theorem maskF000 (w : Word) : w &&& 0xF000 = formA (opOf w) 0 := by
  apply BitVec.eq_of_getLsbD_eq
  intro j hj
  rw [formA_getLsbD]
  interval_cases j <;> simp [opOf]

/-- Masking with F00F keeps the op-group and the low nibble. -/
theorem maskF00F (w : Word) : w &&& 0xF00F = formR (opOf w) 0 0 (subOpOf w) := by
  apply BitVec.eq_of_getLsbD_eq
  intro j hj
  rw [formR_getLsbD]
  interval_cases j <;> simp [opOf, subOpOf, idxNibble]

theorem rowA (op : BitVec 4) (nnn : Addr12) : formA op nnn &&& 0xF000 = formA op 0 := by
  rw [maskF000, opOf_formA]

theorem rowI (op : BitVec 4) (x : RegIdx) (kk : Byte) : formI op x kk &&& 0xF000 = formA op 0 := by
  rw [maskF000, opOf_formI]

theorem rowR (op : BitVec 4) (x y : RegIdx) (n : BitVec 4) : formR op x y n &&& 0xF00F = formR op 0 0 n := by
  rw [maskF00F, opOf_formR, subOpOf_formR]

theorem rowS (op : BitVec 4) (x y : RegIdx) (n : BitVec 4) : formR op x y n &&& 0xF000 = formA op 0 := by
  rw [maskF000, opOf_formR]

theorem cls : Statement .cls := rfl
theorem ret : Statement .ret := rfl
theorem jp (nnn : Addr12) : Statement (.jp nnn) := rowA 0x1 nnn
theorem call (nnn : Addr12) : Statement (.call nnn) := rowA 0x2 nnn
theorem se (x : RegIdx) (kk : Byte) : Statement (.se x kk) := rowI 0x3 x kk
theorem sne (x : RegIdx) (kk : Byte) : Statement (.sne x kk) := rowI 0x4 x kk
theorem seReg (x y : RegIdx) : Statement (.seReg x y) := rowR 0x5 x y 0x0
theorem ld (x : RegIdx) (kk : Byte) : Statement (.ld x kk) := rowI 0x6 x kk
theorem add (x : RegIdx) (kk : Byte) : Statement (.add x kk) := rowI 0x7 x kk
theorem ldReg (x y : RegIdx) : Statement (.ldReg x y) := rowR 0x8 x y 0x0
theorem or (x y : RegIdx) : Statement (.or x y) := rowR 0x8 x y 0x1
theorem and (x y : RegIdx) : Statement (.and x y) := rowR 0x8 x y 0x2
theorem xor (x y : RegIdx) : Statement (.xor x y) := rowR 0x8 x y 0x3
theorem addReg (x y : RegIdx) : Statement (.addReg x y) := rowR 0x8 x y 0x4
theorem sub (x y : RegIdx) : Statement (.sub x y) := rowR 0x8 x y 0x5
theorem shr (x y : RegIdx) : Statement (.shr x y) := rowR 0x8 x y 0x6
theorem subn (x y : RegIdx) : Statement (.subn x y) := rowR 0x8 x y 0x7
theorem shl (x y : RegIdx) : Statement (.shl x y) := rowR 0x8 x y 0xE
theorem sneReg (x y : RegIdx) : Statement (.sneReg x y) := rowR 0x9 x y 0x0
theorem ldI (nnn : Addr12) : Statement (.ldI nnn) := rowA 0xA nnn
theorem jpV0 (nnn : Addr12) : Statement (.jpV0 nnn) := rowA 0xB nnn
theorem rnd (x : RegIdx) (kk : Byte) : Statement (.rnd x kk) := rowI 0xC x kk
theorem drw (x y : RegIdx) (n : Fin 16) : Statement (.drw x y n) := rowS 0xD x y (idxNibble n)

end Sys2Proof.Laws.RowSelected
end

