-- ==== Sys2Proof/Laws/Step.lean ====
section
/-! SUPPORT. What each meaning and one frame can do, said once: `exec_*` for the meanings that branch, `exec_keeps` for
what no instruction changes, and the inversion of a frame. -/

namespace Sys2Proof.Machine

/-! ### The meanings that can raise a fault -/

theorem spriteInRange_iff (base : Word) (n : Nat) :
    spriteInRange base n = true ↔ n = 0 ∨ base.toNat + n - 1 ≤ 0xFFF := by
  simp [spriteInRange]

/-- When the check of Dxyn passes, each of its single-byte reads succeeds and gives the cell the sprite is taken from
(44_display.md R131: `MemRead(base + r, 1)`). -/
theorem spriteRow_read {s : State} {n r : Nat} (h : spriteInRange s.i n = true) (hr : r < n) :
    memRead1 s (s.i + BitVec.ofNat 16 r) = .ok (readCell s.mem (s.i.toNat + r)) := by
  have hle := (spriteInRange_iff s.i n).mp h
  have ha : (s.i + BitVec.ofNat 16 r).toNat = s.i.toNat + r := by
    simp only [BitVec.toNat_add, BitVec.toNat_ofNat]
    omega
  have hlt : s.i.toNat + r < Config.memSize := by simp only [Config.memSize]; omega
  simp [memRead1, ha, hlt]

/-- Everything a RET can do (40_flow.md R80). -/
theorem exec_ret_cases (s : State) :
    (∃ h : 0 < s.sp.val, exec .ret s = .next
      { s with pc := s.stack[s.sp.val - 1]'(by have := s.sp.isLt; omega)
               sp := ⟨s.sp.val - 1, by have := s.sp.isLt; omega⟩ }) ∨
    (s.sp.val = 0 ∧ exec .ret s = .next (raise .stackUnderflow s)) := by
  rcases pop_cases s with ⟨h, e⟩ | ⟨h, e⟩
  · exact .inl ⟨h, by simp only [exec, execRet, e, done, setPc]⟩
  · exact .inr ⟨h, by simp only [exec, execRet, e, done]⟩

/-- Everything a CALL can do (40_flow.md R82). -/
theorem exec_call_cases (nnn : Addr12) (s : State) :
    (∃ h : s.sp.val < 16, exec (.call nnn) s = .next
      { s with stack := s.stack.set s.sp.val (s.pc + 2) h
               sp := ⟨s.sp.val + 1, Nat.succ_lt_succ h⟩
               pc := addrOperand nnn }) ∨
    (s.sp.val = 16 ∧ exec (.call nnn) s = .next (raise .stackOverflow s)) := by
  rcases push_cases (s.pc + 2) s with ⟨h, e⟩ | ⟨h, e⟩
  · exact .inl ⟨h, by simp only [exec, execCall, e, done, setPc]⟩
  · exact .inr ⟨h, by simp only [exec, execCall, e, done]⟩

/-- Everything a DRW can do (44_display.md R131). -/
theorem exec_drw_cases (x y : RegIdx) (n : Fin 16) (s : State) :
    ((n.val = 0 ∨ s.i.toNat + n.val - 1 ≤ 0xFFF) ∧ exec (.drw x y n) s = .next (drawSprite x y n.val s)) ∨
    (0 < n.val ∧ 0xFFF < s.i.toNat + n.val - 1 ∧
      exec (.drw x y n) s = .next (raise (.addressOutOfRange 0x1000) s)) := by
  by_cases h : spriteInRange s.i n.val = true
  · exact .inl ⟨(spriteInRange_iff _ _).mp h, by simp [exec, execDrw, h]⟩
  · have h' : ¬ (n.val = 0 ∨ s.i.toNat + n.val - 1 ≤ 0xFFF) := fun hc => h ((spriteInRange_iff s.i n.val).mpr hc)
    exact .inr ⟨by omega, by omega, by simp [exec, execDrw, h]⟩

/-- What a DRW in range leaves in the framebuffer. -/
theorem drawSprite_fb (x y : RegIdx) (n : Nat) (s : State) :
    (drawSprite x y n s).fb = (xorBlit (spritePixels s.mem s.i.toNat n (readV s x) (readV s y)) s.fb).fb := rfl

/-- What a DRW in range leaves at the ports. -/
theorem drawSprite_pulses (x y : RegIdx) (n : Nat) (s : State) :
    (drawSprite x y n s).pulses =
      s.pulses ++ (xorBlit (spritePixels s.mem s.i.toNat n (readV s x) (readV s y)) s.fb).calls ++ [.dispPresent] := rfl

/-- What a DRW in range leaves in VF. -/
theorem readV_drawSprite (x y : RegIdx) (n : Nat) (s : State) (r : RegIdx) :
    readV (drawSprite x y n s) r =
      if r = vF then flagByte (xorBlit (spritePixels s.mem s.i.toNat n (readV s x) (readV s y)) s.fb).hit
      else readV s r := by
  simp [drawSprite, readV_writeV]

/-! ### Every instruction -/

/-- Every instruction answers a next state. -/
theorem exec_next (i : Instr) (s : State) : ∃ t, exec i s = .next t := by
  cases i with
  | ret => rcases exec_ret_cases s with ⟨_, h⟩ | ⟨_, h⟩ <;> exact ⟨_, h⟩
  | call nnn => rcases exec_call_cases nnn s with ⟨_, h⟩ | ⟨_, h⟩ <;> exact ⟨_, h⟩
  | drw x y n => rcases exec_drw_cases x y n s with ⟨_, h⟩ | ⟨_, _, h⟩ <;> exact ⟨_, h⟩
  | _ => exact ⟨_, rfl⟩

/-- What no instruction changes, faulting or not: the timers, the tone, the Display schedule, memory. -/
theorem exec_keeps {i : Instr} {s t : State} (h : exec i s = .next t) :
    t.dt = s.dt ∧ t.st = s.st ∧ t.tone = s.tone ∧ t.displayOpenIn = s.displayOpenIn ∧ t.mem = s.mem := by
  cases i with
  | ret => rcases exec_ret_cases s with ⟨_, e⟩ | ⟨_, e⟩ <;> · rw [e] at h; cases h; exact ⟨rfl, rfl, rfl, rfl, rfl⟩
  | call nnn =>
    rcases exec_call_cases nnn s with ⟨_, e⟩ | ⟨_, e⟩ <;> · rw [e] at h; cases h; exact ⟨rfl, rfl, rfl, rfl, rfl⟩
  | drw x y n =>
    rcases exec_drw_cases x y n s with ⟨_, e⟩ | ⟨_, _, e⟩ <;> · rw [e] at h; cases h; exact ⟨rfl, rfl, rfl, rfl, rfl⟩
  | _ => cases h; exact ⟨rfl, rfl, rfl, rfl, rfl⟩

/-- An instruction leaves the run state and the latches alone, or it raises a fault and changes nothing else. -/
theorem exec_run {i : Instr} {s t : State} (h : exec i s = .next t) :
    (t.runState = s.runState ∧ t.faultCode = s.faultCode ∧ t.faultInfo = s.faultInfo) ∨ ∃ e, t = raise e s := by
  cases i with
  | ret =>
    rcases exec_ret_cases s with ⟨_, e⟩ | ⟨_, e⟩ <;> rw [e] at h <;> cases h
    · exact .inl ⟨rfl, rfl, rfl⟩
    · exact .inr ⟨_, rfl⟩
  | call nnn =>
    rcases exec_call_cases nnn s with ⟨_, e⟩ | ⟨_, e⟩ <;> rw [e] at h <;> cases h
    · exact .inl ⟨rfl, rfl, rfl⟩
    · exact .inr ⟨_, rfl⟩
  | drw x y n =>
    rcases exec_drw_cases x y n s with ⟨_, e⟩ | ⟨_, _, e⟩ <;> rw [e] at h <;> cases h
    · exact .inl ⟨rfl, rfl, rfl⟩
    · exact .inr ⟨_, rfl⟩
  | _ => cases h; exact .inl ⟨rfl, rfl, rfl⟩

/-! ### The frame -/

/-- Everything one frame can do. -/
theorem step_cases (s : State) :
    (s.runState ≠ .running ∧ step s = .next (beginFrame s)) ∨
    (s.runState = .running ∧ displayOpen s = false ∧
      step s = .next (setRunState .stopped (sampled (beginFrame s)))) ∨
    (s.runState = .running ∧ displayOpen s = true ∧ 0xFFE < s.pc.toNat ∧
      step s = .next (raise (.addressOutOfRange (if s.pc = 0xFFF then 0x1000 else s.pc)) (afterTick s))) ∨
    (∃ w e, s.runState = .running ∧ displayOpen s = true ∧ s.pc.toNat ≤ 0xFFE ∧
      wordOfBytes (readCell s.mem s.pc.toNat) (readCell s.mem (s.pc.toNat + 1)) = w ∧ decode w = .error e ∧
      step s = .next (raise (.unknownOpcode w) (afterTick s))) ∨
    (∃ w i, s.runState = .running ∧ displayOpen s = true ∧ s.pc.toNat ≤ 0xFFE ∧
      wordOfBytes (readCell s.mem s.pc.toNat) (readCell s.mem (s.pc.toNat + 1)) = w ∧ decode w = .ok i ∧
      step s = exec i (afterTick s)) := by
  by_cases hr : s.runState = .running
  · cases ho : displayOpen s
    · exact .inr (.inl ⟨hr, rfl, by simp [step, frame, hr, ho]⟩)
    · have hf : step s = cpuStep (afterTick s) := by simp [step, frame, hr, ho]
      have hm : memRead2 (afterTick s) (afterTick s).pc = memRead2 s s.pc := rfl
      rcases memRead2_cases s s.pc with ⟨hp, e⟩ | ⟨hp, e⟩
      · generalize hw : wordOfBytes (readCell s.mem s.pc.toNat) (readCell s.mem (s.pc.toNat + 1)) = w at e
        cases hd : decode w with
        | error err =>
          exact .inr (.inr (.inr (.inl ⟨w, err, hr, rfl, hp, rfl, hd, by rw [hf, cpuStep, fetch, hm, e]; simp [hd]⟩)))
        | ok i =>
          exact .inr (.inr (.inr (.inr ⟨w, i, hr, rfl, hp, rfl, hd, by rw [hf, cpuStep, fetch, hm, e]; simp [hd]⟩)))
      · exact .inr (.inr (.inl ⟨hr, rfl, hp, by rw [hf, cpuStep, fetch, hm, e]⟩))
  · refine .inl ⟨hr, ?_⟩
    cases h : s.runState <;> simp_all [step, frame]

/-! ### Runs -/

/-- A run of `k + 1` frames is one frame and a run of `k`. -/
theorem run_succ {k : Nat} {s t : State} (h : Sys2Proof.core.run (k + 1) s = .next t) :
    ∃ u, step s = .next u ∧ Sys2Proof.core.run k u = .next t := by
  simp only [Host.Core.run] at h
  split at h
  · next u hu => exact ⟨u, hu, h⟩
  · cases h
  · cases h

/-- One frame and a run of `k` frames are a run of `k + 1`. -/
theorem run_of_step {k : Nat} {s u t : State} (hs : step s = .next u) (h : Sys2Proof.core.run k u = .next t) :
    Sys2Proof.core.run (k + 1) s = .next t := by
  simp only [Host.Core.run]
  split
  · next v hv =>
    cases hs.symm.trans hv
    exact h
  · next r hr => cases hs.symm.trans hr
  · next r hr => cases hs.symm.trans hr

/-- The induction of every claim about runs: what holds at the start and is kept by every step holds at the end. -/
theorem run_induction {P : State → Prop} (hstep : ∀ s u, P s → step s = .next u → P u) {k : Nat} {s t : State}
    (hs : P s) (h : Sys2Proof.core.run k s = .next t) : P t := by
  induction k generalizing s with
  | zero =>
    cases h
    exact hs
  | succ k ih =>
    obtain ⟨u, hu, hk⟩ := run_succ h
    exact ih (hstep s u hs hu) hk

end Sys2Proof.Machine
end

