-- ==== Sys2Proof/Tests/Slice0.lean ====
section
/-! SUPPORT. The model's own tests: the checks of WellFormed refuse ill-formed operands; every constructor's decoding from a
word written bit by bit from 30_encoding.md R66; at most two one-step tests an instruction, expected values from
95_test_vectors.md (part named at each); and a named witness of the hypotheses of every statement. -/

namespace Sys2Proof.Tests

open Sys2Proof Sys2Proof.Machine

/-! ### Helpers -/

/-- The outcome is a next state of which the check holds. -/
def nextHas (o : Host.Outcome State Fault Refusal) (check : State → Bool) : Bool :=
  match o with
  | .next t => check t
  | .fault _ => false
  | .refused _ => false

/-- What a word decodes to. -/
def decoded (w : Word) : Option Instr :=
  match decode w with
  | .ok i => some i
  | .error _ => none

/-- Why a word does not decode. -/
def refusedAs (w : Word) : Option IllegalClass :=
  match decode w with
  | .ok _ => none
  | .error (.illegal _ why) => some why
  | .error .truncated => none

/-- The reset state with `w` at 0x200, the registers written in turn, and VF the canary EE first. -/
def ready (w : Word) (rs : List (RegIdx × Byte)) : State :=
  rs.foldl (fun s r => writeV r.1 r.2 s) (writeV vF 0xEE (placeWord w State.reset))

/-- The reset state with `w` placed at `pc`. -/
def readyAt (pc w : Word) : State := placeWord w { State.reset with pc := pc }

/-- The reset state with a call depth and every entry `ret`. -/
def deep (sp : Fin 17) (ret : Word) : State := { State.reset with sp := sp, stack := Vector.replicate 16 ret }

/-- `ready` for DRW: an index and the sprite's bytes at it. -/
def sprite (w : Word) (rs : List (RegIdx × Byte)) (i : Word) (bytes : List Byte) : State :=
  { ready w rs with i := i, mem := storeBytes (ready w rs).mem i.toNat bytes }

/-- The lit pixels of a row. -/
def litIn (s : State) (py : Nat) : List Nat := (List.range 64).filter (fun px => getPixel s.fb px py)

/-- The length of a run of zero bytes, without computing the run. -/
theorem zeros_length (n : Nat) : (List.replicate n (0 : Byte)).length = n := List.length_replicate

/-- The fault latches. -/
def latches (s : State) : RunState × BitVec 3 × Word := (s.runState, s.faultCode, s.faultInfo)

/-! ### WellFormed refuses what no word holds -/

theorem test_wf_refuses_register_16 : operandsWf [{ width := 4, value := 16 }] = false := by decide
theorem test_wf_refuses_byte_256 : operandsWf [.reg 0, { width := 8, value := 256 }] = false := by decide
theorem test_wf_refuses_address_4096 : operandsWf [{ width := 12, value := 4096 }] = false := by decide
theorem test_wf_refuses_sprite_of_16_rows : operandsWf [.reg 0, .reg 1, { width := 4, value := 16 }] = false := by decide
theorem test_wf_refuses_too_many_operands : operandsWf [.addr 0, .reg 0] = false := by decide
theorem test_wf_accepts_largest_operands :
    Instr.wf (.drw 15 15 15) = true ∧ Instr.wf (.jp 0xFFF) = true ∧ Instr.wf (.rnd 15 0xFF) = true := by decide

/-! ### Decoding: one word of each constructor, written from 30_encoding.md R66 -/

theorem test_decode_fixed_words :
    decoded 0b0000000011100000 = some .cls ∧ decoded 0b0000000011101110 = some .ret := by decide
theorem test_decode_jumps_and_calls :
    decoded 0b0001101010111100 = some (.jp 0xABC) ∧ decoded 0b0010001100000000 = some (.call 0x300) ∧
    decoded 0b1011001100000001 = some (.jpV0 0x301) := by decide
theorem test_decode_skips :
    decoded 0b0011101000000101 = some (.se 0xA 0x05) ∧ decoded 0b0100101000000101 = some (.sne 0xA 0x05) ∧
    decoded 0b0101101010110000 = some (.seReg 0xA 0xB) ∧ decoded 0b1001101010110000 = some (.sneReg 0xA 0xB) := by decide
theorem test_decode_immediates :
    decoded 0b0110101000000101 = some (.ld 0xA 0x05) ∧ decoded 0b0111101000001011 = some (.add 0xA 0x0B) ∧
    decoded 0b1010001000001110 = some (.ldI 0x20E) ∧ decoded 0b1100000000001111 = some (.rnd 0x0 0x0F) := by decide
theorem test_decode_copy_and_logic :
    decoded 0b1000101010110000 = some (.ldReg 0xA 0xB) ∧ decoded 0b1000101010110001 = some (.or 0xA 0xB) ∧
    decoded 0b1000101010110010 = some (.and 0xA 0xB) ∧ decoded 0b1000101010110011 = some (.xor 0xA 0xB) := by decide
theorem test_decode_arithmetic :
    decoded 0b1000101010110100 = some (.addReg 0xA 0xB) ∧ decoded 0b1000101010110101 = some (.sub 0xA 0xB) ∧
    decoded 0b1000101010110111 = some (.subn 0xA 0xB) := by decide
theorem test_decode_shifts :
    decoded 0b1000101010110110 = some (.shr 0xA 0xB) ∧ decoded 0b1000101010111110 = some (.shl 0xA 0xB) := by decide
theorem test_decode_draw : decoded 0b1101000000010010 = some (.drw 0x0 0x1 0x2) := by decide
theorem test_decode_refuses_group0 :
    refusedAs 0x0000 = some .group0 ∧ refusedAs 0x00E1 = some .group0 ∧ refusedAs 0x01EE = some .group0 := by decide
theorem test_decode_refuses_low_nibbles :
    refusedAs 0x5AB1 = some .group5 ∧ refusedAs 0x8AB8 = some .group8 ∧ refusedAs 0x8ABD = some .group8 ∧
    refusedAs 0x8ABF = some .group8 ∧ refusedAs 0x9ABF = some .group9 := by decide
theorem test_decode_refuses_groups_e_and_f :
    refusedAs 0xE39E = some .keypad ∧ refusedAs 0xE3A1 = some .keypad ∧ refusedAs 0xF30A = some .keypad ∧
    refusedAs 0xE000 = some .groupE ∧ refusedAs 0xFFFF = some .groupF := by decide
theorem test_decode_table_word :
    decodeTableWord 16 0x8AB7 = some (.subn 0xA 0xB) ∧ decodeTableWord 16 0x0000 = none := by decide

/-! ### One step: control transfer (T1) -/

theorem test_jp : nextHas (step (ready 0x1ABC [])) (fun t => t.pc == 0x0ABC) = true := by decide
theorem test_call_at_odd_address :
    nextHas (step { readyAt 0x04A1 0x2300 with sp := 3 })
      (fun t => t.pc == 0x0300 && t.sp == 4 && t.stack[3] == 0x04A3) = true := by decide
theorem test_call_overflows :
    nextHas (step { ready 0x2300 [] with sp := 16 })
      (fun t => latches t == (.faulted, 2, 0x0000) && t.pc == 0x0200 && t.sp == 16) = true := by decide
theorem test_ret :
    nextHas (step { readyAt 0x0300 0x00EE with sp := 1, stack := Vector.replicate 16 0x0202 })
      (fun t => t.pc == 0x0202 && t.sp == 0 && t.stack[0] == 0x0202) = true := by decide
theorem test_ret_underflows :
    nextHas (step (readyAt 0x0300 0x00EE)) (fun t => latches t == (.faulted, 3, 0x0000) && t.pc == 0x0300) = true := by
  decide
theorem test_jpV0_is_not_reduced :
    nextHas (step (ready 0xBFFF [(0, 0xFF)])) (fun t => t.pc == 0x10FE && t.runState == .running) = true := by decide

/-! ### One step: skips (T2) -/

theorem test_se : nextHas (step (ready 0x3A05 [(0xA, 0x05)])) (fun t => t.pc == 0x0204) = true := by decide
theorem test_se_at_end_of_memory : nextHas (step (readyAt 0x0FFE 0x3A05)) (fun t => t.pc == 0x1000) = true := by decide
theorem test_sne_equal : nextHas (step (ready 0x4A05 [(0xA, 0x05)])) (fun t => t.pc == 0x0202) = true := by decide
theorem test_sne_different : nextHas (step (ready 0x4A05 [(0xA, 0x06)])) (fun t => t.pc == 0x0204) = true := by decide
theorem test_seReg : nextHas (step (ready 0x5AB0 [(0xA, 9), (0xB, 8)])) (fun t => t.pc == 0x0202) = true := by decide
theorem test_seReg_same_register : nextHas (step (ready 0x5AA0 [(0xA, 9)])) (fun t => t.pc == 0x0204) = true := by decide
theorem test_sneReg : nextHas (step (ready 0x9AB0 [(0xA, 9), (0xB, 8)])) (fun t => t.pc == 0x0204) = true := by decide

/-! ### One step: immediates, index, random (T3) -/

theorem test_ld : nextHas (step (ready 0x6A05 [(0xA, 0xFF)])) (fun t => readV t 0xA == 0x05 && readV t vF == 0xEE) = true := by
  decide
theorem test_add_wraps :
    nextHas (step (ready 0x7A01 [(0xA, 0xFF)])) (fun t => readV t 0xA == 0x00 && readV t vF == 0xEE) = true := by decide
theorem test_add_to_vF : nextHas (step (ready 0x7F02 [(vF, 0xFF)])) (fun t => readV t vF == 0x01) = true := by decide
theorem test_ldI : nextHas (step (ready 0xAFFF [])) (fun t => t.i == 0x0FFF && t.pc == 0x0202) = true := by decide
theorem test_rnd_masks_the_draw :
    nextHas (step { ready 0xC00F [] with rndIn := [0xA7, 0x5C] })
      (fun t => readV t 0 == 0x07 && t.rndIn == [0x5C] && readV t vF == 0xEE) = true := by decide

/-! ### One step: the ALU (T4, T5) -/

theorem test_ldReg : nextHas (step (ready 0x8AB0 [(0xA, 0x12), (0xB, 0x34)])) (fun t => readV t 0xA == 0x34) = true := by
  decide
theorem test_or :
    nextHas (step (ready 0x8AB1 [(0xA, 0xF0), (0xB, 0x0F)])) (fun t => readV t 0xA == 0xFF && readV t vF == 0xEE) = true := by
  decide
theorem test_and :
    nextHas (step (ready 0x8AB2 [(0xA, 0xF0), (0xB, 0x3C)])) (fun t => readV t 0xA == 0x30 && readV t vF == 0xEE) = true := by
  decide
theorem test_xor :
    nextHas (step (ready 0x8AB3 [(0xA, 0xFF), (0xB, 0x0F)])) (fun t => readV t 0xA == 0xF0 && readV t vF == 0xEE) = true := by
  decide
theorem test_addReg_sum_255_has_no_carry :
    nextHas (step (ready 0x8AB4 [(0xA, 0x80), (0xB, 0x7F)])) (fun t => readV t 0xA == 0xFF && readV t vF == 0) = true := by
  decide
theorem test_addReg_into_vF : nextHas (step (ready 0x8FB4 [(vF, 0xF0), (0xB, 0x20)])) (fun t => readV t vF == 1) = true := by
  decide
theorem test_sub_tie :
    nextHas (step (ready 0x8AB5 [(0xA, 7), (0xB, 7)])) (fun t => readV t 0xA == 0 && readV t vF == 0) = true := by decide
theorem test_sub_into_vF : nextHas (step (ready 0x8FB5 [(vF, 3), (0xB, 9)])) (fun t => readV t vF == 0xFA) = true := by decide
theorem test_shr :
    nextHas (step (ready 0x8AB6 [(0xA, 5), (0xB, 0xFF)]))
      (fun t => readV t 0xA == 2 && readV t 0xB == 0xFF && readV t vF == 1) = true := by decide
theorem test_shr_of_vF : nextHas (step (ready 0x8FB6 [(vF, 2)])) (fun t => readV t vF == 1) = true := by decide
theorem test_subn_writes_vy :
    nextHas (step (ready 0x8AB7 [(0xA, 0x0A), (0xB, 5)]))
      (fun t => readV t 0xA == 0x0A && readV t 0xB == 0xFB && readV t vF == 0) = true := by decide
theorem test_subn_into_vF : nextHas (step (ready 0x8AF7 [(0xA, 3), (vF, 9)])) (fun t => readV t vF == 6) = true := by decide
theorem test_shl :
    nextHas (step (ready 0x8ABE [(0xA, 0x81), (0xB, 0x55)]))
      (fun t => readV t 0xA == 2 && readV t 0xB == 0x55 && readV t vF == 1) = true := by decide
theorem test_shl_of_vF : nextHas (step (ready 0x8FBE [(vF, 0x41)])) (fun t => readV t vF == 0x82) = true := by decide

/-! ### One step: the display (T6, P3 frame 5) -/

theorem test_cls :
    nextHas (step { ready 0x00E0 [] with fb := Vector.replicate 32 (BitVec.allOnes 64) })
      (fun t => t.fb == clearedFb && t.pulses == [.beepStop, .dispClear, .dispPresent]) = true := by decide
theorem test_drw_wraps_both_ways :
    nextHas (step (sprite 0xD012 [(0, 0x3E), (1, 0x1F)] 0x020E [0xE1, 0x80]))
      (fun t => litIn t 31 == [0, 5, 62, 63] && litIn t 0 == [62] && readV t vF == 0) = true := by decide
theorem test_drw_collision :
    nextHas (step { sprite 0xD121 [(1, 0), (2, 0)] 0x0300 [0xFF] with fb := setPixel clearedFb 7 0 true })
      (fun t => litIn t 0 == [0, 1, 2, 3, 4, 5, 6] && readV t vF == 1 && t.pc == 0x0202) = true := by decide

/-! ### Illegal words, fetches, ticks, frames (T1.12, T7, T8, T9, T10) -/

theorem test_empty_program_faults :
    nextHas (step State.reset) (fun t => latches t == (.faulted, 1, 0x0000) && t.pc == 0x0200 && t.pulses == [.beepStop]) = true := by
  decide
theorem test_fetch_above_memory :
    nextHas (step { State.reset with pc := 0x10FE }) (fun t => latches t == (.faulted, 4, 0x10FE) && t.pc == 0x10FE) = true := by
  decide
theorem test_fetch_of_last_byte :
    nextHas (step { State.reset with pc := 0x0FFF }) (fun t => latches t == (.faulted, 4, 0x1000)) = true := by decide
theorem test_tick_starts_the_tone :
    nextHas (step { ready 0x1200 [] with dt := 3, st := 2 })
      (fun t => t.dt == 2 && t.st == 1 && t.tone && t.pulses == [.beepStart]) = true := by decide
theorem test_tick_before_an_illegal_word :
    nextHas (step { ready 0xFFFF [] with dt := 1, st := 1 })
      (fun t => latches t == (.faulted, 1, 0xFFFF) && t.tone && t.dt == 0 && t.st == 0) = true := by decide
theorem test_closed_display_stops :
    nextHas (step { ready 0x1200 [] with displayOpenIn := [false], st := 3, tone := true })
      (fun t => t.runState == .stopped && t.st == 3 && t.tone && t.pulses == []) = true := by decide
theorem test_word_program :
    programOfWords [0x6A05, 0x7A0B] = [0x6A, 0x05, 0x7A, 0x0B] := by decide
theorem test_font_is_in_memory :
    (List.range 5).map (readCell State.reset.mem) = [0xF0, 0x90, 0x90, 0x90, 0xF0] ∧ readCell State.reset.mem 0x50 = 0 := by
  decide

/-! ### Witnesses: the hypotheses of each statement can be met -/

theorem isReady {s : State} (hr : s.runState = .running) (ho : displayOpen s = true) : Ready s := ⟨hr, ho⟩

theorem witness_ResetLeavesSpecifiedState :
    ({ defaultInputs with program := List.replicate 3584 0 } : ResetInputs).program.length ≤ 3584 :=
  Nat.le_of_eq (zeros_length 3584)
theorem witness_LoaderBuildsMemoryImage :
    ∃ (program : List Byte) (k a : Nat), program.length ≤ 3584 ∧ k < program.length ∧ 0x050 ≤ a ∧ a ≤ 0x1FF ∧
      ∃ b, 0x200 + program.length ≤ b ∧ b ≤ 0xFFF := ⟨[0x12], 0, 0x1FF, by decide, by decide, by decide, by decide, 0xFFF, by decide⟩
theorem witness_LoaderBuildsMemoryImage_full :
    ∃ (program : List Byte) (k : Nat), program.length ≤ 3584 ∧ k < program.length ∧ 0x200 + k = 0xFFF :=
  ⟨List.replicate 3584 0, 3583, Nat.le_of_eq (zeros_length 3584), Nat.lt_of_lt_of_eq (by decide) (zeros_length 3584).symm, by decide⟩
theorem witness_LoaderRejectsLargeProgram :
    3584 < ({ defaultInputs with program := List.replicate 3585 0 } : ResetInputs).program.length ∧
    ([] : List Byte).length ≤ 3584 := ⟨Nat.lt_of_lt_of_eq (by decide) (zeros_length 3585).symm, by decide⟩
theorem witness_WordProgramIsBigEndian : ∃ (ws : List Word) (j : Nat), j < ws.length := ⟨[0x6A05, 0x7A0B], 1, by decide⟩
theorem witness_DecodeOfEncode : Instr.wf (.drw 15 15 15) = true ∧ Instr.wf .cls = true := by decide
theorem witness_EncodeOfDecode : decode 0x8FF6 = .ok (.shr 15 15) ∧ decode 0xDFFF = .ok (.drw 15 15 15) := ⟨rfl, rfl⟩

theorem witness_StepRunsDecodedInstruction :
    ∃ (s : State) (i : Instr), Ready s ∧ s.pc.toNat ≤ 0xFFE ∧
      decodeBytes (readCell s.mem s.pc.toNat :: readCell s.mem (s.pc.toNat + 1) :: [0x12]) = .ok (i, [0x12]) :=
  ⟨readyAt 0xFFE 0x1FFE, .jp 0xFFE, isReady rfl rfl, by decide, rfl⟩
theorem witness_FetchAboveMemoryFaults :
    (Ready { State.reset with pc := 0xFFF } ∧ 0xFFE < (0xFFF : Word).toNat) ∧
    (Ready { State.reset with pc := 0x10FE } ∧ 0xFFE < (0x10FE : Word).toNat) :=
  ⟨⟨isReady rfl rfl, by decide⟩, isReady rfl rfl, by decide⟩

/-- A word the decoder refuses is no instruction's. -/
theorem not_decoded {w : Word} (h : decoded w = none) : ∀ i, decode w ≠ .ok i := by
  intro i hi
  rw [decoded, hi] at h
  cases h

theorem witness_IllegalWordsFault :
    (Ready State.reset ∧ WordAtPc State.reset 0x0000 ∧ ∀ i, decode 0x0000 ≠ .ok i) ∧
    (opOf 0x0FFF = 0x0 ∧ (0x0FFF : Word) ≠ 0x00E0 ∧ (0x0FFF : Word) ≠ 0x00EE) ∧
    (opOf 0x8FFF = 0x8 ∧ subOpOf 0x8FFF = 0xF) ∧ (opOf 0x8AB8 = 0x8 ∧ subOpOf 0x8AB8 = 0x8) :=
  ⟨⟨isReady rfl rfl, ⟨by decide, by decide⟩, not_decoded (by decide)⟩, by decide, by decide, by decide⟩
theorem witness_KeypadAndGroupWordsIllegal :
    opOf 0xE39E = 0xE ∧ opOf 0xF30A = 0xF ∧ (opOf 0x5AB1 = 0x5 ∧ subOpOf 0x5AB1 ≠ 0) ∧
    (opOf 0x9ABF = 0x9 ∧ subOpOf 0x9ABF ≠ 0) := by decide
theorem witness_ClosedDisplayStops :
    ({ State.reset with displayOpenIn := [false] } : State).runState = .running ∧
    displayOpen { State.reset with displayOpenIn := [false] } = false := by decide
theorem witness_HaltedMachineIsAbsorbing :
    (raise .stackUnderflow State.reset).runState ≠ .running ∧ (setRunState .stopped State.reset).runState ≠ .running ∧
    (setRunState .loadFailed State.reset).runState ≠ .running := by decide
theorem witness_OnlyListedFaults :
    State.reset.runState = .running ∧ exec (.jp 0) State.reset = .next (setPc 0 State.reset) ∧
    exec .ret State.reset = .next (raise .stackUnderflow State.reset) ∧
    exec (.call 0) (deep 16 0) = .next (raise .stackOverflow (deep 16 0)) ∧
    exec (.drw 0 0 2) { State.reset with i := 0xFFF } =
      .next (raise (.addressOutOfRange 0x1000) { State.reset with i := 0xFFF }) := ⟨rfl, rfl, rfl, rfl, rfl⟩
theorem witness_OnlyListedFaults_frames :
    (Ready { State.reset with pc := 0xFFF } ∧ 0xFFE < (0xFFF : Word).toNat) ∧
    (Ready State.reset ∧ WordAtPc State.reset 0x0000 ∧ ∀ i, decode 0x0000 ≠ .ok i) ∧
    (Ready (readyAt 0xFFE 0x00E0) ∧ WordAtPc (readyAt 0xFFE 0x00E0) 0x00E0 ∧ decode 0x00E0 = .ok .cls) :=
  ⟨⟨isReady rfl rfl, by decide⟩, ⟨isReady rfl rfl, ⟨by decide, by decide⟩, not_decoded (by decide)⟩,
   isReady rfl rfl, ⟨by decide, by decide⟩, rfl⟩
theorem witness_FaultsArePrecise :
    Ready State.reset ∧ ∃ t, step State.reset = .next t ∧ t.runState = .faulted := ⟨isReady rfl rfl, _, rfl, rfl⟩

/-- Every row of the opcode map is selected by some word: the hypothesis of each `RowDecodes`. -/
theorem witness_RowDecodes : (opcodeTable.all (fun r => r.bits &&& r.mask == r.bits)) = true := by decide

theorem witness_RetPopsReturnAddress :
    0 < (deep 1 0x202).sp.val ∧ 0 < (deep 16 0x202).sp.val ∧ (deep 0 0x202).sp.val = 0 := by decide
theorem witness_CallPushesReturnAddress :
    (deep 0 0).sp.val < 16 ∧ (deep 15 0).sp.val < 16 ∧ (deep 16 0).sp.val = 16 ∧
    (∃ k : Fin 16, k.val ≠ (deep 15 0).sp.val) := ⟨by decide, by decide, by decide, 0, by decide⟩
theorem witness_CallThenRetReturns : (deep 15 0).sp.val < 16 ∧ ∃ k : Fin 16, k.val < (deep 15 0).sp.val :=
  ⟨by decide, 14, by decide⟩
theorem witness_SeSkipsOnEqual :
    readV (ready 0 [(0xA, 0xFF)]) 0xA = 0xFF ∧ readV (ready 0 [(0xA, 0xFF)]) 0xA ≠ 0 := by decide
theorem witness_SneSkipsOnDifferent :
    readV (ready 0 [(0xA, 0xFF)]) 0xA ≠ 0 ∧ readV (ready 0 [(0xA, 0xFF)]) 0xA = 0xFF := by decide
theorem witness_SeRegSkipsOnEqual :
    readV (ready 0 []) 0 = readV (ready 0 []) 1 ∧ readV (ready 0 []) 0 ≠ readV (ready 0 []) vF ∧
    opOf 0x500F = 0x5 ∧ subOpOf 0x500F ≠ 0 := by decide
theorem witness_SneRegSkipsOnDifferent :
    readV (ready 0 []) 0 ≠ readV (ready 0 []) vF ∧ readV (ready 0 []) 0 = readV (ready 0 []) 1 ∧
    opOf 0x900F = 0x9 ∧ subOpOf 0x900F ≠ 0 := by decide
theorem witness_LdILoadsIndex :
    ∃ t, exec (.ldI 0xFFF) State.reset = .next t ∧ t.i ≠ State.reset.i := ⟨_, rfl, by decide⟩
theorem witness_RndMasksOneDraw :
    ({ State.reset with rndIn := [0xFF, 0x00] } : State).rndIn = 0xFF :: [0x00] ∧ State.reset.rndIn = [] := by decide
theorem witness_LogicIsBitwiseWithoutFlag : (7 : Nat) < 8 := by decide
/-- The destination is not VF: the hypothesis of the flag clauses of 8xy4 to 8xyE. -/
theorem witness_flag_destination : (14 : RegIdx) ≠ vF := by decide
theorem witness_RegisterUseTable :
    (vF ∉ regsRead (.sub 0 1) ∧ vF ∈ regsWritten (.sub 0 1)) ∧ (2 ∉ regsRead (.sub 0 1) ∧ 2 ∉ regsWritten (.sub 0 1)) ∧
    ∃ t, exec (.sub 0 1) State.reset = .next t ∧ t.runState ≠ .faulted := ⟨by decide, by decide, _, rfl, by decide⟩
theorem witness_DisplayContract : ((63 : Nat) < 64 ∧ (31 : Nat) < 32) ∧ ¬ ((64 : Nat) < 64 ∧ (0 : Nat) < 32) := by decide
theorem witness_ClsClearsEveryPixel : (63 : Nat) < 64 ∧ (31 : Nat) < 32 := by decide

theorem witness_DrwInvertsSpritePixels :
    SpriteFits { State.reset with i := 0xFFF } 0 ∧ SpriteFits { State.reset with i := 0xFF1 } 15 ∧
    SpriteCovers State.reset.mem 0 5 0 0 3 4 ∧ ¬ SpriteCovers State.reset.mem 0 0 0 0 3 4 :=
  ⟨.inl rfl, .inr (by decide), ⟨4, 3, by decide⟩, fun ⟨_, _, h, _⟩ => absurd h (Nat.not_lt_zero _)⟩
theorem witness_DrwInvertsSpritePixels_collision :
    let s : State := { State.reset with fb := Vector.replicate 32 (BitVec.allOnes 64) }
    (∃ t, exec (.drw 0 0 1) s = .next t ∧ getPixel s.fb 0 0 = true ∧ getPixel t.fb 0 0 = false) ∧
    (∃ t, exec (.drw 0 0 0) s = .next t ∧ ∀ px py : Nat, px < 64 → py < 32 → getPixel s.fb px py = true →
      getPixel t.fb px py = true) := ⟨⟨_, rfl, by decide, by decide⟩, _, rfl, fun _ _ _ _ h => h⟩
theorem witness_DrwOutOfRangeFaults :
    0 < (2 : Fin 16).val ∧ 0xFFF < ({ State.reset with i := 0xFFF } : State).i.toNat + (2 : Fin 16).val - 1 := by decide
theorem witness_DrwCallsDisplayInOrder : SpriteFits { State.reset with i := 0xFFF } 1 := .inr (by decide)
theorem witness_DrwTwiceRestoresScreen :
    ∃ t, SpriteFits State.reset 5 ∧ exec (.drw 0 1 5) State.reset = .next t ∧ readV t 0 = readV State.reset 0 ∧
      readV t 1 = readV State.reset 1 ∧ (∃ px py : Nat, SpriteCovers State.reset.mem 0 5 0 0 px py) ∧
      (∀ px py : Nat, ¬ SpriteCovers State.reset.mem 0 0 0 0 px py) :=
  ⟨_, .inr (by decide), rfl, rfl, rfl, ⟨3, 4, 4, 3, by decide⟩, fun _ _ ⟨_, _, h, _⟩ => absurd h (Nat.not_lt_zero _)⟩
theorem witness_PresentOnlyAfterClsAndDrw :
    State.reset.runState = .running ∧ (∃ t, exec .cls State.reset = .next t ∧ t.runState ≠ .faulted) ∧
    (∃ t, exec .ret State.reset = .next t ∧ t.runState = .faulted) ∧
    (∃ t, exec (.jp 0) State.reset = .next t ∧ Instr.jp 0 ≠ .cls ∧ ∀ x y n, Instr.jp 0 ≠ .drw x y n) :=
  ⟨rfl, ⟨_, rfl, by decide⟩, ⟨_, rfl, rfl⟩, _, rfl, by decide, by simp⟩
theorem witness_TickCountsDownAndCommandsBeeper :
    State.reset.st = 0 ∧ ({ State.reset with st := 0xFF } : State).st ≠ 0 := by decide
theorem witness_OneBeeperCommandPerFrame : Ready State.reset ∧ ∃ t, step State.reset = .next t := ⟨isReady rfl rfl, _, rfl⟩
theorem witness_TimersCountFrames :
    ∃ t, RunsClean 2 { ready 0x1200 [] with dt := 1, st := 0xFF } t := ⟨_, rfl, by decide⟩
theorem witness_TimersAreInvisibleToInstructions : ∃ t, exec (.ldI 1) State.reset = .next t := ⟨_, rfl⟩
theorem witness_IndexRegisterUse :
    (∃ t, exec (.jp 1) State.reset = .next t) ∧ (∀ nnn, Instr.jp 1 ≠ .ldI nnn) ∧ (∀ x y n, Instr.jp 1 ≠ .drw x y n) ∧
    (∃ t, exec (.ldI 1) State.reset = .next t) := ⟨⟨_, rfl⟩, by simp, by simp, _, rfl⟩
theorem witness_StackAndScreenWriters :
    (∃ t, exec (.jp 1) State.reset = .next t) ∧ (∀ nnn, Instr.jp 1 ≠ .call nnn) ∧ Instr.jp 1 ≠ .ret ∧ Instr.jp 1 ≠ .cls ∧
    (∀ x y n, Instr.jp 1 ≠ .drw x y n) := ⟨⟨_, rfl⟩, by simp, by simp, by simp, by simp⟩
theorem witness_MemoryNeverChanges : ∃ t, Sys2Proof.core.run 2 State.reset = .next t := ⟨_, rfl⟩

/-- The reset state meets the invariant. -/
theorem reset_inv : State.reset.Inv :=
  ⟨rfl, by decide, by decide, by decide, fun _ => ⟨rfl, rfl⟩, fun h => (nomatch h), fun h => (nomatch h)⟩

theorem witness_StepKeepsMachineInvariant : State.reset.Inv ∧ ∃ t, step State.reset = .next t := ⟨reset_inv, _, rfl⟩
theorem witness_LoadedMachineMeetsInvariant : defaultInputs.program.length ≤ 3584 := by decide
theorem witness_DrwRecordsLowestBadAddress :
    ∃ s t : State, s.Inv ∧ s.runState = .running ∧ exec (.drw 0 1 15) s = .next t ∧ t.runState = .faulted :=
  ⟨{ State.reset with i := 0xFF2 }, _,
    ⟨rfl, by decide, by decide, by decide, fun _ => ⟨rfl, rfl⟩, fun h => (nomatch h), fun h => (nomatch h)⟩, rfl, rfl, rfl⟩

end Sys2Proof.Tests
end

namespace Sys2Proof.Machine

/-! ### The loader and reset (00_scope.md R6, 70_reset_and_hazards.md R190 to R193) -/

/-- Storing what unlisted cells already read as lists no cell: the canonical form of the reset image is empty (log 26). -/
theorem storeBytes_resetByte {a : Nat} {bs : List Byte}
    (h : ∀ (k : Nat) (hk : k < bs.length), bs[k] = resetByte (a + k)) : storeBytes [] a bs = [] := by
  induction bs generalizing a with
  | nil => rfl
  | cons b bs ih =>
    have head : b = resetByte a := h 0 (by simp)
    have tail : ∀ (k : Nat) (hk : k < bs.length), bs[k] = resetByte (a + 1 + k) := by
      intro k hk
      have hb := h (k + 1) (by simpa using hk)
      simpa [Nat.add_comm, Nat.add_left_comm] using hb
    simpa only [storeBytes, writeCell, if_pos head] using ih tail

theorem defaultFont_length : Config.defaultFont.length = Config.fontLen := rfl

/-- In the font area an unlisted cell reads as the default font. -/
theorem resetByte_of_lt {a : Nat} (h : a < Config.fontLen) : resetByte a = Config.defaultFont.getD a 0 := if_pos h

/-- The default font and no program leave the reset image. -/
theorem build_defaultFont_nil : build defaultFontParam [] = .ok [] := by
  have font : storeBytes [] Config.fontBase Config.defaultFont = [] := by
    refine storeBytes_resetByte fun k hk => ?_
    have hlt : Config.fontBase + k < Config.fontLen := by simpa [defaultFont_length] using hk
    rw [resetByte_of_lt hlt]
    simp [hk]
  have hlist : defaultFontParam.toList = Config.defaultFont := rfl
  simp only [build, hlist, font, storeBytes, List.length_nil, Nat.zero_le, if_true]

/-- Reset after a successful load: the parameters and the image, the rest as `State.reset` has it. -/
theorem boot_of_build_ok {r : ResetInputs} {m : Memory} (h : build r.font r.program = .ok m) :
    boot r = { State.reset with
      mem := m, dt := r.dtInit, st := r.stInit, fb := r.fbInit
      displayOpenIn := r.displayOpenIn, rndIn := r.rndIn } := by
  simp only [boot, h]

/-- Settles O2: the default font is the image an unlisted cell already reads as, and every other default input is the
value of `State.reset`. -/
theorem resetIsBootOfDefaults : Obligations.ResetIsBootOfDefaults :=
  boot_of_build_ok (r := defaultInputs) build_defaultFont_nil

end Sys2Proof.Machine

namespace Sys2Proof.Machine

/-! ### What one instruction can change outside the registers (10_state.md R14 to R26) -/

/-- The values an instruction can leave in PC: the classes of 10_state.md R17, and `pc0` itself after a fault. -/
inductive NextPc (s : State) : Word → Prop where
  | kept : NextPc s s.pc
  | sequential (skip : Bool) : NextPc s (s.pc + if skip then 4 else 2)
  | jump (nnn : Addr12) : NextPc s (addrOperand nnn)
  | indexed (nnn : Addr12) (v0 : Byte) : NextPc s (indexedTarget nnn v0)
  | popped (k : Fin 16) : NextPc s s.stack[k]

/-- A fault that records an address records one above memory (60_exceptions.md R151). -/
def RecordsOutside (e : Exn) : Prop := faultCodeOf e = 4 → 0xFFF < (faultInfoOf e).toNat

/-- What `i` can have done to each part of the state but the registers and the draws. A part left out of a construction
is unchanged. -/
structure InstrChanges (i : Instr) (s t : State) : Prop where
  index : t.i = s.i ∨ ∃ nnn, i = .ldI nnn ∧ t.i = addrOperand nnn := by exact .inl rfl
  pc : NextPc s t.pc
  stack : t.stack = s.stack ∨ ∃ nnn h, i = .call nnn ∧ t.stack = s.stack.set s.sp.val (s.pc + 2) h := by exact .inl rfl
  sp : t.sp = s.sp ∨ i = .ret ∨ ∃ nnn, i = .call nnn := by exact .inl rfl
  fb : t.fb = s.fb ∨ i = .cls ∨ ∃ x y n, i = .drw x y n := by exact .inl rfl
  latches : (t.runState = s.runState ∧ t.faultCode = s.faultCode ∧ t.faultInfo = s.faultInfo) ∨
    ∃ e, t = raise e s ∧ RecordsOutside e := by exact .inl ⟨rfl, rfl, rfl⟩

/-- A precise fault changes the latches and the run state only (60_exceptions.md R153). -/
theorem instrChanges_raise (i : Instr) {e : Exn} (he : RecordsOutside e) (s : State) : InstrChanges i s (raise e s) :=
  { pc := .kept, latches := .inr ⟨e, rfl, he⟩ }

theorem recordsOutside_addressOutOfRange {a : Word} (h : 0xFFF < a.toNat) : RecordsOutside (.addressOutOfRange a) :=
  fun _ => h

/-- A fault of another row records no address. -/
theorem recordsOutside_of_code {e : Exn} (h : faultCodeOf e ≠ 4) : RecordsOutside e := fun h4 => absurd h4 h

theorem recordsOutside_unknownOpcode (w : Word) : RecordsOutside (.unknownOpcode w) :=
  recordsOutside_of_code (by simp [faultCodeOf])

/-- Everything an instruction can change outside the registers and the draws. -/
theorem exec_changes {i : Instr} {s t : State} (h : exec i s = .next t) : InstrChanges i s t := by
  cases i with
  | ret =>
    rcases exec_ret_cases s with ⟨hpos, e⟩ | ⟨_, e⟩ <;> rw [e] at h <;> cases h
    · exact { pc := .popped ⟨s.sp.val - 1, by omega⟩, sp := .inr (.inl rfl) }
    · exact instrChanges_raise _ (recordsOutside_of_code (by decide)) s
  | call nnn =>
    rcases exec_call_cases nnn s with ⟨hlt, e⟩ | ⟨_, e⟩ <;> rw [e] at h <;> cases h
    · exact { pc := .jump nnn, stack := .inr ⟨nnn, hlt, rfl, rfl⟩, sp := .inr (.inr ⟨nnn, rfl⟩) }
    · exact instrChanges_raise _ (recordsOutside_of_code (by decide)) s
  | drw x y n =>
    rcases exec_drw_cases x y n s with ⟨_, e⟩ | ⟨_, _, e⟩ <;> rw [e] at h <;> cases h
    · exact { pc := .sequential false, fb := .inr (.inr ⟨x, y, n, rfl⟩) }
    · exact instrChanges_raise _ (recordsOutside_addressOutOfRange (by decide)) s
  | cls => cases h; exact { pc := .sequential false, fb := .inr (.inl rfl) }
  | ldI nnn => cases h; exact { pc := .sequential false, index := .inr ⟨nnn, rfl, rfl⟩ }
  | jp nnn => cases h; exact { pc := .jump nnn }
  | jpV0 nnn => cases h; exact { pc := .indexed nnn _ }
  | se | sne | seReg | sneReg => cases h; exact { pc := .sequential _ }
  | _ => cases h; exact { pc := .sequential false }

/-! ### The invariant (10_state.md R15, R17, R18, R25, 40_flow.md R82) -/

/-- From a PC that was fetched from, every class of 10_state.md R17 stays within 0x10FE, the largest sum of Bnnn. -/
theorem NextPc.le {s : State} {a : Word} (hs : s.Inv) (hp : s.pc.toNat ≤ 0xFFE) (h : NextPc s a) :
    a.toNat ≤ 0x10FE := by
  cases h with
  | kept => omega
  | sequential skip => cases skip <;> simp <;> omega
  | jump nnn => have := nnn.isLt; rw [addrOperand_toNat]; omega
  | indexed nnn v0 => have := nnn.isLt; have := v0.isLt; rw [indexedTarget_toNat]; omega
  | popped k => have := hs.stackBound k; omega

/-- A return address pushed by a fetched CALL is at most 0x1000, so a push keeps the bound of the stack. -/
theorem stack_set_le {s : State} (hs : s.Inv) (hp : s.pc.toNat ≤ 0xFFE) {j : Nat} (hj : j < 16) (k : Fin 16) :
    ((s.stack.set j (s.pc + 2) hj)[k]).toNat ≤ 0x1000 := by
  have hold := hs.stackBound k
  simp only [Fin.getElem_fin, Vector.getElem_set] at hold ⊢
  split
  · simp; omega
  · exact hold

/-- Raising a fault sets the latches to its row and keeps the rest of the invariant. -/
theorem inv_raise {s : State} (hs : s.Inv) {e : Exn} (he : RecordsOutside e) : (raise e s).Inv where
  memWf := hs.memWf
  indexInMemory := hs.indexInMemory
  pcBound := hs.pcBound
  stackBound := hs.stackBound
  latchesClear h := absurd rfl h
  latchesSet _ := ⟨e, rfl, rfl⟩
  badAddress := he

/-- The sample, the port record and the tick touch nothing the invariant speaks of. -/
theorem inv_afterTick {s : State} (hs : s.Inv) : (afterTick s).Inv :=
  ⟨hs.memWf, hs.indexInMemory, hs.pcBound, hs.stackBound, hs.latchesClear, hs.latchesSet, hs.badAddress⟩

theorem inv_beginFrame {s : State} (hs : s.Inv) : (beginFrame s).Inv :=
  ⟨hs.memWf, hs.indexInMemory, hs.pcBound, hs.stackBound, hs.latchesClear, hs.latchesSet, hs.badAddress⟩

/-- A machine that stops had clear latches, since it was Running. -/
theorem inv_stopped {s : State} (hs : s.Inv) (hr : s.runState = .running) :
    (setRunState .stopped (sampled (beginFrame s))).Inv where
  memWf := hs.memWf
  indexInMemory := hs.indexInMemory
  pcBound := hs.pcBound
  stackBound := hs.stackBound
  latchesClear _ := hs.latchesClear (by simp [hr])
  latchesSet h := nomatch h
  badAddress := hs.badAddress

/-- An instruction fetched from memory keeps the invariant. -/
theorem exec_inv {i : Instr} {s t : State} (hs : s.Inv) (hp : s.pc.toNat ≤ 0xFFE) (h : exec i s = .next t) : t.Inv := by
  have c := exec_changes h
  obtain ⟨-, -, -, -, hmem⟩ := exec_keeps h
  rcases c.latches with ⟨hrun, hcode, hinfo⟩ | ⟨e, rfl, he⟩
  · exact {
      memWf := hmem ▸ hs.memWf
      indexInMemory := by
        rcases c.index with e | ⟨nnn, -, e⟩ <;> rw [e]
        · exact hs.indexInMemory
        · have := nnn.isLt; rw [addrOperand_toNat]; omega
      pcBound := c.pc.le hs hp
      stackBound := by
        rcases c.stack with e | ⟨_, hsp, -, e⟩ <;> rw [e]
        · exact hs.stackBound
        · exact stack_set_le hs hp hsp
      latchesClear := by rw [hrun, hcode, hinfo]; exact hs.latchesClear
      latchesSet := by rw [hrun, hcode, hinfo]; exact hs.latchesSet
      badAddress := by rw [hcode, hinfo]; exact hs.badAddress }
  · exact inv_raise hs he

/-- A failed fetch records an address above memory (20_memory.md R46). -/
theorem fetch_records_outside {pc : Word} (h : 0xFFE < pc.toNat) :
    0xFFF < (if pc = 0xFFF then (0x1000 : Word) else pc).toNat := by
  split
  · decide
  · next hne =>
    have : pc.toNat ≠ 0xFFF := fun e => hne (BitVec.eq_of_toNat_eq e)
    omega

/-- Settles O54: each outcome of a frame keeps the invariant; an instruction runs only from a PC that was fetched from. -/
theorem stepKeepsMachineInvariant : Obligations.StepKeepsMachineInvariant := by
  intro s t hs h
  rcases step_cases s with ⟨_, e⟩ | ⟨hr, _, e⟩ | ⟨_, _, hp, e⟩ | ⟨w, _, _, _, _, _, _, e⟩ | ⟨_, i, _, _, hp, _, _, e⟩ <;>
    rw [e] at h
  · cases h; exact inv_beginFrame hs
  · cases h; exact inv_stopped hs hr
  · cases h; exact inv_raise (inv_afterTick hs) (recordsOutside_addressOutOfRange (fetch_records_outside hp))
  · cases h; exact inv_raise (inv_afterTick hs) (recordsOutside_unknownOpcode w)
  · exact exec_inv (s := afterTick s) (inv_afterTick hs) hp h

/-- Settles O52: the writers are those of `InstrChanges`. -/
theorem stackAndScreenWriters : Obligations.StackAndScreenWriters := by
  intro i s t h
  have c := exec_changes h
  refine ⟨fun hcall => ?_, fun hcall hret => ?_, fun hcls hdrw => ?_⟩
  · rcases c.stack with e | ⟨nnn, _, e, -⟩
    · exact e
    · exact absurd e (hcall nnn)
  · rcases c.sp with e | e | ⟨nnn, e⟩
    · exact e
    · exact absurd e hret
    · exact absurd e (hcall nnn)
  · rcases c.fb with e | e | ⟨x, y, n, e⟩
    · exact e
    · exact absurd e hcls
    · exact absurd e (hdrw x y n)

/-! ### RET, CALL and DRW, branch by branch -/

theorem exec_ret_of_pos {s : State} (h : 0 < s.sp.val) : exec .ret s = .next
    { s with pc := s.stack[s.sp.val - 1]'(by have := s.sp.isLt; omega)
             sp := ⟨s.sp.val - 1, by have := s.sp.isLt; omega⟩ } := by
  rcases exec_ret_cases s with ⟨_, e⟩ | ⟨h0, _⟩
  · exact e
  · omega

theorem exec_ret_of_empty {s : State} (h : s.sp.val = 0) : exec .ret s = .next (raise .stackUnderflow s) := by
  rcases exec_ret_cases s with ⟨h0, _⟩ | ⟨_, e⟩
  · omega
  · exact e

theorem exec_call_of_lt {nnn : Addr12} {s : State} (h : s.sp.val < 16) : exec (.call nnn) s = .next
    { s with stack := s.stack.set s.sp.val (s.pc + 2) h
             sp := ⟨s.sp.val + 1, Nat.succ_lt_succ h⟩
             pc := addrOperand nnn } := by
  rcases exec_call_cases nnn s with ⟨_, e⟩ | ⟨h16, _⟩
  · exact e
  · omega

theorem exec_call_of_full {nnn : Addr12} {s : State} (h : s.sp.val = 16) :
    exec (.call nnn) s = .next (raise .stackOverflow s) := by
  rcases exec_call_cases nnn s with ⟨hlt, _⟩ | ⟨_, e⟩
  · omega
  · exact e

theorem exec_drw_of_fits {x y : RegIdx} {n : Fin 16} {s : State} (h : SpriteFits s n) :
    exec (.drw x y n) s = .next (drawSprite x y n.val s) := by
  rcases exec_drw_cases x y n s with ⟨_, e⟩ | ⟨hn, hi, _⟩
  · exact e
  · unfold SpriteFits at h; omega

theorem exec_drw_of_not_fits {x y : RegIdx} {n : Fin 16} {s : State} (h : ¬ SpriteFits s n) :
    exec (.drw x y n) s = .next (raise (.addressOutOfRange 0x1000) s) := by
  rcases exec_drw_cases x y n s with ⟨hfits, _⟩ | ⟨_, _, e⟩
  · exact absurd hfits h
  · exact e

/-! ### Parts of the state that RET and CALL do not see -/

/-- `f` changes nothing that RET and CALL read, and setting what they write commutes with it. -/
structure LeavesControl (f : State → State) : Prop where
  pc : ∀ s, (f s).pc = s.pc := by exact fun _ => rfl
  sp : ∀ s, (f s).sp = s.sp := by exact fun _ => rfl
  stack : ∀ s, (f s).stack = s.stack := by exact fun _ => rfl
  update : ∀ s pc sp stack, f { s with pc := pc, sp := sp, stack := stack } =
    { f s with pc := pc, sp := sp, stack := stack } := by exact fun _ _ _ _ => rfl
  raise : ∀ e s, f (raise e s) = raise e (f s) := by exact fun _ _ => rfl

/-- RET does the same to everything else when a part it does not see differs. -/
theorem exec_ret_map {f : State → State} (hf : LeavesControl f) {s t : State} (h : exec .ret s = .next t) :
    exec .ret (f s) = .next (f t) := by
  rcases exec_ret_cases s with ⟨hsp, e⟩ | ⟨hsp, e⟩ <;> rw [e] at h <;> cases h
  · refine (exec_ret_of_pos (s := f s) (by rwa [hf.sp])).trans
      (congrArg _ (.trans ?_ (hf.update s _ _ _).symm))
    simp only [hf.sp, hf.stack]
  · rw [exec_ret_of_empty (by rwa [hf.sp]), hf.raise]

/-- CALL does the same to everything else when a part it does not see differs. -/
theorem exec_call_map {f : State → State} (hf : LeavesControl f) {nnn : Addr12} {s t : State}
    (h : exec (.call nnn) s = .next t) : exec (.call nnn) (f s) = .next (f t) := by
  rcases exec_call_cases nnn s with ⟨hsp, e⟩ | ⟨hsp, e⟩ <;> rw [e] at h <;> cases h
  · refine (exec_call_of_lt (s := f s) (by rwa [hf.sp])).trans
      (congrArg _ (.trans ?_ (hf.update s _ _ _).symm))
    simp only [hf.sp, hf.stack, hf.pc]
  · rw [exec_call_of_full (by rwa [hf.sp]), hf.raise]

/-! ### The timers and `I` have no influence (10_state.md R14, R21 to R23) -/

/-- The state with other timer values and another tone. -/
def withTimers (d e : Byte) (b : Bool) (s : State) : State := { s with dt := d, st := e, tone := b }

theorem leavesControl_withTimers (d e : Byte) (b : Bool) : LeavesControl (withTimers d e b) := {}
theorem leavesControl_setI (a : Word) : LeavesControl (setI a) := {}
theorem leavesControl_writeV (r : RegIdx) (b : Byte) : LeavesControl (writeV r b) := {}

/-- With other timer values and another tone an instruction does the same to everything else. -/
theorem exec_withTimers {i : Instr} {s t : State} (d e : Byte) (b : Bool) (h : exec i s = .next t) :
    exec i (withTimers d e b s) = .next (withTimers d e b t) := by
  cases i with
  | ret => exact exec_ret_map (leavesControl_withTimers d e b) h
  | call nnn => exact exec_call_map (leavesControl_withTimers d e b) h
  | drw x y n =>
    by_cases hfits : SpriteFits s n
    · rw [exec_drw_of_fits hfits] at h
      cases h
      exact exec_drw_of_fits (s := withTimers d e b s) hfits
    · rw [exec_drw_of_not_fits hfits] at h
      cases h
      exact exec_drw_of_not_fits (s := withTimers d e b s) hfits
  | _ => cases h; rfl

/-- An instruction other than Annn and Dxyn does the same to everything else whatever `I` holds. -/
theorem exec_setI {i : Instr} {s t : State} (a : Word) (hldI : ∀ nnn, i ≠ .ldI nnn) (hdrw : ∀ x y n, i ≠ .drw x y n)
    (h : exec i s = .next t) : exec i (setI a s) = .next (setI a t) := by
  cases i with
  | ret => exact exec_ret_map (leavesControl_setI a) h
  | call nnn => exact exec_call_map (leavesControl_setI a) h
  | ldI nnn => exact absurd rfl (hldI nnn)
  | drw x y n => exact absurd rfl (hdrw x y n)
  | _ => cases h; rfl

/-- Settles O50: the frame is `exec_keeps`, the noninterference `exec_withTimers`. -/
theorem timersAreInvisibleToInstructions : Obligations.TimersAreInvisibleToInstructions := by
  intro i s t d e b h
  obtain ⟨hdt, hst, htone, -, -⟩ := exec_keeps h
  exact ⟨hdt, hst, htone, exec_withTimers d e b h⟩

/-- Settles O51: the writer is that of `InstrChanges`, and Annn overwrites `I` without reading it. -/
theorem indexRegisterUse : Obligations.IndexRegisterUse := by
  intro i s t a h
  refine ⟨fun hldI => ?_, fun hldI hdrw => exec_setI a hldI hdrw h, ?_⟩
  · rcases (exec_changes h).index with e | ⟨nnn, e, -⟩
    · exact e
    · exact absurd e (hldI nnn)
  · rintro nnn rfl
    cases h
    rfl

/-! ### The registers (10_state.md R12) -/

/-- The register writes of `ws`, first to last. -/
def writeRegs : List (RegIdx × Byte) → State → State
  | [], s => s
  | (d, c) :: ws, s => writeRegs ws (writeV d c s)

/-- Register writes leave everything but the register file alone. -/
theorem writeRegs_with_v (ws : List (RegIdx × Byte)) (s : State) (v : Vector Byte 16) :
    { writeRegs ws s with v := v } = { s with v := v } := by
  induction ws generalizing s with
  | nil => rfl
  | cons w ws ih => exact ih _

theorem readV_writeRegs_of_notMem {ws : List (RegIdx × Byte)} {q : RegIdx} (h : q ∉ ws.map Prod.fst) (s : State) :
    readV (writeRegs ws s) q = readV s q := by
  induction ws generalizing s with
  | nil => rfl
  | cons w ws ih =>
    obtain ⟨hne, hws⟩ : q ≠ w.1 ∧ q ∉ ws.map Prod.fst := by simpa [List.mem_cons] using h
    exact (ih hws _).trans (readV_writeV_ne hne _ _)

/-- A register that reads alike before register writes reads alike after them. -/
theorem readV_writeRegs_congr (ws : List (RegIdx × Byte)) {q : RegIdx} {s s' : State} (h : readV s q = readV s' q) :
    readV (writeRegs ws s) q = readV (writeRegs ws s') q := by
  induction ws generalizing s s' with
  | nil => exact h
  | cons w ws ih => exact ih (by simp only [readV_writeV, h])

/-- A written register holds what was written, whatever it held. -/
theorem readV_writeRegs_of_mem {ws : List (RegIdx × Byte)} {q : RegIdx} (h : q ∈ ws.map Prod.fst) (s s' : State) :
    readV (writeRegs ws s) q = readV (writeRegs ws s') q := by
  induction ws generalizing s s' with
  | nil => cases h
  | cons w ws ih =>
    by_cases hq : q = w.1
    · exact readV_writeRegs_congr ws (by simp [hq])
    · exact ih (by simpa [hq] using h) _ _

/-- `i` from `s` is the register writes `ws` on top of `s'`, and it is the same writes on top of the same state when a
register it does not read held another value. -/
structure ActsOnRegs (i : Instr) (s : State) (ws : List (RegIdx × Byte)) (s' : State) : Prop where
  run : exec i s = .next (writeRegs ws s')
  regs : s'.v = s.v
  listed : ws.map Prod.fst = regsWritten i ∨ ws = [] ∧ s'.runState = .faulted
  other : ∀ r b, r ∉ regsRead i → exec i (writeV r b s) = .next (writeRegs ws (writeV r b s'))

/-- A register the row of `i` does not list as written is not among the writes. -/
theorem ActsOnRegs.notMem_writes {i : Instr} {s s' : State} {ws : List (RegIdx × Byte)} (h : ActsOnRegs i s ws s')
    {q : RegIdx} (hq : q ∉ regsWritten i) : q ∉ ws.map Prod.fst := by
  rcases h.listed with e | ⟨rfl, -⟩
  · rwa [e]
  · exact List.not_mem_nil

/-- The registers an instruction reads are unchanged by a write to one it does not read. -/
theorem readV_writeV_of_notMem_read {i : Instr} {r : RegIdx} (hr : r ∉ regsRead i) (b : Byte) (s : State) :
    ∀ x ∈ regsRead i, readV (writeV r b s) x = readV s x :=
  fun _ hx => readV_writeV_ne (ne_of_mem_of_not_mem hx hr) b s

/-- What a DRW in range leaves, VF apart: `drawSprite` is the write of the flag on top of it. -/
def drawnScreen (x y : RegIdx) (n : Nat) (s : State) : State :=
  let blit := xorBlit (spritePixels s.mem s.i.toNat n (readV s x) (readV s y)) s.fb
  present (advance (setFb blit.fb blit.calls s))

theorem exec_ret_v {s t : State} (h : exec .ret s = .next t) : t.v = s.v := by
  rcases exec_ret_cases s with ⟨_, e⟩ | ⟨_, e⟩ <;> rw [e] at h <;> cases h <;> rfl

theorem exec_call_v {nnn : Addr12} {s t : State} (h : exec (.call nnn) s = .next t) : t.v = s.v := by
  rcases exec_call_cases nnn s with ⟨_, e⟩ | ⟨_, e⟩ <;> rw [e] at h <;> cases h <;> rfl

/-- Every instruction is a list of register writes on top of a change of the rest, and no register outside its column
"reads" has a say in either. The values written are left to `rfl`, which reads them off the meaning. -/
theorem exec_actsOnRegs (i : Instr) (s : State) : ∃ ws s', ActsOnRegs i s ws s' := by
  cases i with
  | ret =>
    obtain ⟨t, h⟩ := exec_next .ret s
    exact ⟨[], t, h, exec_ret_v h, .inl rfl, fun r b _ => exec_ret_map (leavesControl_writeV r b) h⟩
  | call nnn =>
    obtain ⟨t, h⟩ := exec_next (.call nnn) s
    exact ⟨[], t, h, exec_call_v h, .inl rfl, fun r b _ => exec_call_map (leavesControl_writeV r b) h⟩
  | drw x y n =>
    by_cases hfits : SpriteFits s n
    · refine ⟨[(vF, _)], drawnScreen x y n.val s, exec_drw_of_fits hfits, rfl, .inl rfl, fun r b hr => ?_⟩
      have hread := readV_writeV_of_notMem_read hr b s
      simp only [regsRead, List.forall_mem_cons] at hread
      rw [exec_drw_of_fits (s := writeV r b s) hfits]
      simp only [drawSprite, hread]
      rfl
    · exact ⟨[], _, exec_drw_of_not_fits hfits, rfl, .inr ⟨rfl, rfl⟩,
        fun r b _ => exec_drw_of_not_fits (s := writeV r b s) hfits⟩
  | cls | jp | ldI => exact ⟨[], _, rfl, rfl, .inl rfl, fun _ _ _ => rfl⟩
  | se | sne | seReg | sneReg | jpV0 =>
    refine ⟨[], setPc _ s, rfl, rfl, .inl rfl, fun r b hr => ?_⟩
    have hread := readV_writeV_of_notMem_read hr b s
    simp only [regsRead, List.forall_mem_cons] at hread
    simp only [exec, execSe, execSne, execSeReg, execSneReg, execJpV0, hread]
    rfl
  | ld | add | ldReg | or | and | xor =>
    refine ⟨[(_, _)], setPc (s.pc + 2) s, rfl, rfl, .inl rfl, fun r b hr => ?_⟩
    have hread := readV_writeV_of_notMem_read hr b s
    simp only [regsRead, List.forall_mem_cons] at hread
    simp only [exec, execLd, execAdd, execLdReg, execOr, execAnd, execXor, hread]
    rfl
  | rnd => exact ⟨[(_, _)], setPc (s.pc + 2) (drawn s), rfl, rfl, .inl rfl, fun _ _ _ => rfl⟩
  | addReg | sub | shr | subn | shl =>
    refine ⟨[(_, _), (_, _)], setPc (s.pc + 2) s, rfl, rfl, .inl rfl, fun r b hr => ?_⟩
    have hread := readV_writeV_of_notMem_read hr b s
    simp only [regsRead, List.forall_mem_cons] at hread
    simp only [exec, execAddReg, execSub, execShr, execSubn, execShl, hread]
    rfl

/-- Settles O39: the written registers are those of the list of writes, and the same list is written when a register that
is not read holds another value. -/
theorem registerUseTable : Obligations.RegisterUseTable := by
  refine ⟨fun i s t h q hq => ?_, fun i s t r b hr h => ?_⟩ <;>
    obtain ⟨ws, s', hacts⟩ := exec_actsOnRegs i s <;>
    cases hacts.run.symm.trans h
  · exact (readV_writeRegs_of_notMem (hacts.notMem_writes hq) s').trans (readV_congr hacts.regs q)
  · refine ⟨_, hacts.other r b hr, ?_, fun q hq => ?_, fun hw hnf => ?_, fun hw => ?_⟩
    · exact (writeRegs_with_v ws _ _).trans (writeRegs_with_v ws s' _).symm
    · exact readV_writeRegs_congr ws (readV_writeV_ne (by simpa using hq) b s')
    · rcases hacts.listed with e | ⟨rfl, hf⟩
      · exact readV_writeRegs_of_mem (e ▸ hw) _ _
      · exact absurd hf hnf
    · rw [readV_writeRegs_of_notMem (hacts.notMem_writes hw), readV_writeV_self]

/-! ### Reset (10_state.md R28) -/

/-- The loader accepts every image of at most 3584 bytes (70_reset_and_hazards.md R193). -/
theorem build_ok (font : Vector Byte 80) {program : List Byte} (h : program.length ≤ 3584) :
    ∃ m, build font program = .ok m := ⟨_, if_pos h⟩

@[simp] theorem readV_reset (x : RegIdx) : readV State.reset x = 0 := by simp [readV, State.reset]

theorem stack_reset (k : Fin 16) : State.reset.stack[k] = 0 := by simp [State.reset]

/-- Settles O1: the image is the loader's, the parameters stand in their fields, the rest is `State.reset`. -/
theorem resetLeavesSpecifiedState : Obligations.ResetLeavesSpecifiedState := by
  intro r hlen
  obtain ⟨m, hm⟩ := build_ok r.font hlen
  rw [boot_of_build_ok hm]
  exact ⟨⟨m, hm, rfl⟩, rfl, readV_reset, rfl, rfl, stack_reset, rfl, rfl, rfl, rfl, rfl, rfl, rfl⟩

/-- Reset after a successful load meets the invariant. -/
theorem inv_boot {r : ResetInputs} (hlen : r.program.length ≤ 3584) : (boot r).Inv := by
  obtain ⟨m, hm⟩ := build_ok r.font hlen
  rw [boot_of_build_ok hm]
  exact {
    memWf := build_wf hm
    indexInMemory := Nat.zero_le _
    pcBound := by simp [State.reset]
    stackBound := fun k => by rw [stack_reset k]; exact Nat.zero_le _
    latchesClear := fun _ => ⟨rfl, rfl⟩
    latchesSet := fun h => nomatch h
    badAddress := fun h => nomatch h }

/-- Settles O55: `State.reset` is itself reset under the default parameters. -/
theorem loadedMachineMeetsInvariant : Obligations.LoadedMachineMeetsInvariant :=
  ⟨resetIsBootOfDefaults ▸ inv_boot (r := defaultInputs) (Nat.zero_le _), fun _ => inv_boot⟩

end Sys2Proof.Machine

namespace Sys2Proof.Machine

/-! ### Memory is constant (20_memory.md R48, R52) -/

/-- No frame stores (20_memory.md R48). -/
theorem step_mem {s t : State} (h : step s = .next t) : t.mem = s.mem := by
  rcases step_cases s with ⟨_, e⟩ | ⟨_, _, e⟩ | ⟨_, _, _, e⟩ | ⟨_, _, _, _, _, _, _, e⟩ | ⟨_, _, _, _, _, _, _, e⟩ <;>
    rw [e] at h
  · cases h; rfl
  · cases h; rfl
  · cases h; rfl
  · cases h; rfl
  · obtain ⟨-, -, -, -, hmem⟩ := exec_keeps h
    exact hmem

/-- No run of frames stores. -/
theorem run_mem {k : Nat} {s t : State} (h : Sys2Proof.core.run k s = .next t) : t.mem = s.mem :=
  run_induction (P := fun u => u.mem = s.mem) (fun _ _ hu hstep => (step_mem hstep).trans hu) rfl h

/-- Settles O53: no frame stores, so by induction no run does. -/
theorem memoryNeverChanges : Obligations.MemoryNeverChanges := by
  intro k s t h
  have hmem := run_mem h
  exact ⟨fun a => congrArg (readCell · a) hmem, congrArg Memory.wf hmem⟩

/-! ### Accesses above 0xFFF (20_memory.md R46, R47) -/

/-- Raising a fault is precise (60_exceptions.md R153). -/
theorem faultedWith_raise (e : Exn) (s : State) : FaultedWith e s (raise e s) where
  runState := rfl
  faultCode := rfl
  faultInfo := rfl
  pc := rfl
  regs _ _ := rfl
  i := rfl
  stack := ⟨rfl, rfl⟩
  dt := rfl
  st := rfl
  tone := rfl
  mem _ := rfl
  screen := ⟨rfl, rfl⟩
  draws := ⟨rfl, rfl⟩
  displayOpenIn := rfl

/-- A DRW that faults was Running with a sprite that passes 0xFFF, and raised `AddressOutOfRange(0x1000)`. -/
theorem exec_drw_faulted {x y : RegIdx} {n : Fin 16} {s t : State} (hr : s.runState = .running)
    (h : exec (.drw x y n) s = .next t) (hf : t.runState = .faulted) :
    0 < n.val ∧ 0xFFF < s.i.toNat + n.val - 1 ∧ t = raise (.addressOutOfRange 0x1000) s := by
  rcases exec_drw_cases x y n s with ⟨_, e⟩ | ⟨hn, hi, e⟩ <;> rw [e] at h <;> cases h
  · have hkept : (drawSprite x y n.val s).runState = .running := hr
    exact nomatch hkept.symm.trans hf
  · exact ⟨hn, hi, rfl⟩

/-- Settles O56: the sprite starts at or below 0xFFF and ends above it, so 0x1000 is its first address outside. -/
theorem drwRecordsLowestBadAddress : Obligations.DrwRecordsLowestBadAddress := by
  intro x y n s t hs hr h hf
  obtain ⟨hn, hi, rfl⟩ := exec_drw_faulted hr h hf
  have hstart := hs.indexInMemory
  have hinfo : (raise (.addressOutOfRange 0x1000) s).faultInfo.toNat = 0x1000 := rfl
  rw [hinfo]
  exact ⟨⟨0x1000 - s.i.toNat, by omega, by omega⟩, by omega, fun r _ hr => hr⟩

/-- A frame whose fetch passes 0xFFF raises the fault with the lowest address outside (20_memory.md R46). -/
theorem step_of_fetch_outside {s : State} (h : Ready s) (hp : 0xFFE < s.pc.toNat) :
    step s = .next (raise (.addressOutOfRange (if s.pc = 0xFFF then 0x1000 else s.pc)) (afterTick s)) := by
  obtain ⟨hr, ho⟩ := h
  rcases step_cases s with ⟨hnr, _⟩ | ⟨_, hc, _⟩ | ⟨_, _, _, e⟩ | ⟨_, _, _, _, hle, _⟩ | ⟨_, _, _, _, hle, _⟩
  · exact absurd hr hnr
  · exact nomatch hc.symm.trans ho
  · exact e
  · omega
  · omega

/-- Settles O12: the frame raises the fetch's fault in the ticked state, and raising is precise. -/
theorem fetchAboveMemoryFaults : Obligations.FetchAboveMemoryFaults := by
  intro s h hp
  have hpc : s.pc.toNat = 0xFFF ↔ s.pc = 0xFFF := BitVec.toNat_inj (y := 0xFFF)
  simp only [hpc]
  exact ⟨_, step_of_fetch_outside h hp, faultedWith_raise _ _⟩

/-- Settles O43: the sprite does not fit, so the check of DRW raises the fault, and raising is precise. -/
theorem drwOutOfRangeFaults : Obligations.DrwOutOfRangeFaults := by
  intro x y n s hn hi
  have hfits : ¬ SpriteFits s n := by unfold SpriteFits; omega
  exact ⟨_, exec_drw_of_not_fits hfits, faultedWith_raise _ _⟩

end Sys2Proof.Machine

namespace Sys2Proof.Machine

/-! ### The decoder and the encoder (30_encoding.md R61, R64, R66, R69) -/

/-- The decoder gives back every instruction from its word: the tree reads the op-group, then the fields of the form. -/
theorem decode_encode (i : Instr) : decode (encode i) = .ok i := by
  cases i with
  | cls | ret => rfl
  | jp | call | ldI | jpV0 => simp [encode, decode]
  | se | sne | ld | add | rnd => simp [encode, decode]
  | drw => simp [encode, decode]
  | seReg => simp [encode, decode, decodeGroup5]
  | sneReg => simp [encode, decode, decodeGroup9]
  | _ => simp [encode, decode, decodeGroup8]

/-- The bytes after an instruction are given back as they stand. -/
theorem decodeBytes_eq_ok_iff {hi lo : Byte} {rest : List Byte} {i : Instr} :
    decodeBytes (hi :: lo :: rest) = .ok (i, rest) ↔ decode (wordOfBytes hi lo) = .ok i := by
  rw [decodeBytes_cons]
  cases decode (wordOfBytes hi lo) <;> simp [Except.map]

/-- Settles O7: on bytes, `decodeBytes` reads back the word they were cut from. -/
theorem decodeOfEncode : Obligations.DecodeOfEncode := by
  intro i _
  refine ⟨decode_encode i, fun rest => decodeBytes_eq_ok_iff.mpr ?_⟩
  rw [wordOfBytes_bytes, decode_encode]

theorem formA_of_op {w : Word} {op : BitVec 4} (hop : opOf w = op) : formA op (nnnOf w) = w :=
  hop ▸ formA_fields w

theorem formI_of_op {w : Word} {op : BitVec 4} (hop : opOf w = op) : formI op (xOf w) (kkOf w) = w :=
  hop ▸ formI_fields w

theorem formR_of_op {w : Word} {op : BitVec 4} (hop : opOf w = op) : formR op (xOf w) (yOf w) (subOpOf w) = w :=
  hop ▸ formR_fields w

theorem formR_of_op_subOp {w : Word} {op n : BitVec 4} (hop : opOf w = op) (hn : subOpOf w = n) :
    formR op (xOf w) (yOf w) n = w :=
  hn ▸ formR_of_op hop

theorem encode_of_decodeGroup0 {w : Word} {i : Instr} (h : decodeGroup0 w = .ok i) : encode i = w := by
  unfold decodeGroup0 at h
  split_ifs at h with hcls hret
  · cases h; exact hcls.symm
  · cases h; exact hret.symm

theorem encode_of_decodeGroup5 {w : Word} {i : Instr} (hop : opOf w = 0x5) (h : decodeGroup5 w = .ok i) :
    encode i = w := by
  unfold decodeGroup5 at h
  split_ifs at h with hn
  cases h; exact formR_of_op_subOp hop hn

theorem encode_of_decodeGroup8 {w : Word} {i : Instr} (hop : opOf w = 0x8) (h : decodeGroup8 w = .ok i) :
    encode i = w := by
  unfold decodeGroup8 at h
  split at h <;> cases h
  all_goals next hn => exact formR_of_op_subOp hop hn

theorem encode_of_decodeGroup9 {w : Word} {i : Instr} (hop : opOf w = 0x9) (h : decodeGroup9 w = .ok i) :
    encode i = w := by
  unfold decodeGroup9 at h
  split_ifs at h with hn
  cases h; exact formR_of_op_subOp hop hn

theorem decodeGroupE_ne_ok (w : Word) (i : Instr) : decodeGroupE w ≠ .ok i := by
  unfold decodeGroupE
  split_ifs <;> exact nofun

theorem decodeGroupF_ne_ok (w : Word) (i : Instr) : decodeGroupF w ≠ .ok i := by
  unfold decodeGroupF
  split_ifs <;> exact nofun

/-- A word that decodes is the word of what it decodes to: each leaf of the tree fixes the op-group, and the fields it
reads are the rest of the word. -/
theorem encode_of_decode {w : Word} {i : Instr} (h : decode w = .ok i) : encode i = w := by
  unfold decode at h
  split at h
  case h_1 => exact encode_of_decodeGroup0 h
  case h_6 hop => exact encode_of_decodeGroup5 hop h
  case h_9 hop => exact encode_of_decodeGroup8 hop h
  case h_10 hop => exact encode_of_decodeGroup9 hop h
  case h_2 hop | h_3 hop | h_11 hop | h_12 hop => cases h; exact formA_of_op hop
  case h_4 hop | h_5 hop | h_7 hop | h_8 hop | h_13 hop => cases h; exact formI_of_op hop
  case h_14 hop => cases h; exact formR_of_op hop
  case h_15 => exact absurd h (decodeGroupE_ne_ok w i)
  case h_16 => exact absurd h (decodeGroupF_ne_ok w i)

/-- The decoder is the inverse of the encoder on the words it accepts. -/
theorem decode_eq_ok_iff {w : Word} {i : Instr} : decode w = .ok i ↔ encode i = w :=
  ⟨encode_of_decode, fun h => h ▸ decode_encode i⟩

/-- Settles O8: every leaf of the decision tree keeps all the fields of its word. -/
theorem encodeOfDecode : Obligations.EncodeOfDecode := fun _ _ => encode_of_decode

/-! ### The rows of the opcode map (30_encoding.md R64, R66) -/

/-- A row with mask F000 carries the form A of its op-group. -/
theorem rowDecodes_formA {bits : Word} (instr : Addr12 → Instr)
    (h : ∀ nnn, encode (instr nnn) = formA (opOf bits) nnn) :
    RowDecodes 0xF000 bits (fun w => instr (nnnOf w)) :=
  fun _ hw => decode_eq_ok_iff.mpr ((h _).trans (formA_of_op (opOf_of_maskF000 hw)))

/-- A row with mask F000 carries the form I of its op-group. -/
theorem rowDecodes_formI {bits : Word} (instr : RegIdx → Byte → Instr)
    (h : ∀ x kk, encode (instr x kk) = formI (opOf bits) x kk) :
    RowDecodes 0xF000 bits (fun w => instr (xOf w) (kkOf w)) :=
  fun _ hw => decode_eq_ok_iff.mpr ((h _ _).trans (formI_of_op (opOf_of_maskF000 hw)))

/-- A row with mask F00F carries the form R of its op-group and low nibble. -/
theorem rowDecodes_formR {bits : Word} (instr : RegIdx → RegIdx → Instr)
    (h : ∀ x y, encode (instr x y) = formR (opOf bits) x y (subOpOf bits)) :
    RowDecodes 0xF00F bits (fun w => instr (xOf w) (yOf w)) := fun _ hw =>
  let ⟨hop, hn⟩ := fields_of_maskF00F hw
  decode_eq_ok_iff.mpr ((h _ _).trans (formR_of_op_subOp hop hn))

/-- A row with mask F000 carries the form S of its op-group: three nibbles below it. -/
theorem rowDecodes_formS {bits : Word} (instr : RegIdx → RegIdx → Fin 16 → Instr)
    (h : ∀ x y n, encode (instr x y n) = formR (opOf bits) x y (idxNibble n)) :
    RowDecodes 0xF000 bits (fun w => instr (xOf w) (yOf w) (nOf w)) :=
  fun _ hw => decode_eq_ok_iff.mpr ((h _ _ _).trans (formR_of_op (opOf_of_maskF000 hw)))

/-- A row with mask FFFF carries the one instruction that is its word. -/
theorem rowDecodes_word (i : Instr) : RowDecodes 0xFFFF (encode i) (fun _ => i) :=
  fun _ hw => decode_eq_ok_iff.mpr (eq_of_maskFFFF hw).symm

/-- Every row of the opcode map has an instruction form that its words decode to. -/
theorem exists_form_of_mem_opcodeTable : ∀ r ∈ opcodeTable, ∃ form, RowDecodes r.mask r.bits form := by
  simp only [opcodeTable, opcodeRowsPlain, opcodeRowsAlu, opcodeRowsHigh, List.cons_append, List.nil_append,
    List.forall_mem_cons]
  exact ⟨⟨_, rowDecodes_word .cls⟩, ⟨_, rowDecodes_word .ret⟩,
    ⟨_, rowDecodes_formA .jp fun _ => rfl⟩, ⟨_, rowDecodes_formA .call fun _ => rfl⟩,
    ⟨_, rowDecodes_formI .se fun _ _ => rfl⟩, ⟨_, rowDecodes_formI .sne fun _ _ => rfl⟩,
    ⟨_, rowDecodes_formR .seReg fun _ _ => rfl⟩,
    ⟨_, rowDecodes_formI .ld fun _ _ => rfl⟩, ⟨_, rowDecodes_formI .add fun _ _ => rfl⟩,
    ⟨_, rowDecodes_formR .ldReg fun _ _ => rfl⟩, ⟨_, rowDecodes_formR .or fun _ _ => rfl⟩,
    ⟨_, rowDecodes_formR .and fun _ _ => rfl⟩, ⟨_, rowDecodes_formR .xor fun _ _ => rfl⟩,
    ⟨_, rowDecodes_formR .addReg fun _ _ => rfl⟩, ⟨_, rowDecodes_formR .sub fun _ _ => rfl⟩,
    ⟨_, rowDecodes_formR .shr fun _ _ => rfl⟩, ⟨_, rowDecodes_formR .subn fun _ _ => rfl⟩,
    ⟨_, rowDecodes_formR .shl fun _ _ => rfl⟩,
    ⟨_, rowDecodes_formR .sneReg fun _ _ => rfl⟩,
    ⟨_, rowDecodes_formA .ldI fun _ => rfl⟩, ⟨_, rowDecodes_formA .jpV0 fun _ => rfl⟩,
    ⟨_, rowDecodes_formI .rnd fun _ _ => rfl⟩, ⟨_, rowDecodes_formS .drw fun _ _ _ => rfl⟩, nofun⟩

open Laws in
/-- The word of an instruction selects the instruction's row. -/
theorem encode_and_rowOf (i : Instr) : encode i &&& (RowSelected.rowOf i).1 = (RowSelected.rowOf i).2 := by
  cases i with
  | cls | ret => rfl
  | jp | call | ldI | jpV0 => exact RowSelected.rowA _ _
  | se | sne | ld | add | rnd => exact RowSelected.rowI _ _ _
  | drw => exact RowSelected.rowS _ _ _ _
  | _ => exact RowSelected.rowR _ _ _ _

open Laws in
/-- The row of every instruction stands in the opcode map. -/
theorem rowOf_mem_opcodeTable (i : Instr) : RowSelected.rowOf i ∈ opcodeTable.map fun r => (r.mask, r.bits) := by
  cases i <;> dsimp only [RowSelected.rowOf] <;> decide

theorem legalWord_iff {w : Word} : legalWord w = true ↔ ∃ r ∈ opcodeTable, w &&& r.mask = r.bits := by
  simp [legalWord, OpcodeRow.selectedBy]

theorem legalWord_encode (i : Instr) : legalWord (encode i) = true := by
  obtain ⟨r, hr, hrow⟩ := List.mem_map.mp (rowOf_mem_opcodeTable i)
  have hsel := encode_and_rowOf i
  rw [← hrow] at hsel
  exact legalWord_iff.mpr ⟨r, hr, hsel⟩

/-- The decision tree accepts exactly the words some row selects. -/
theorem exists_decode_iff_legalWord {w : Word} : (∃ i, decode w = .ok i) ↔ legalWord w = true := by
  constructor
  · rintro ⟨i, h⟩
    exact encode_of_decode h ▸ legalWord_encode i
  · intro h
    obtain ⟨r, hr, hsel⟩ := legalWord_iff.mp h
    obtain ⟨form, hform⟩ := exists_form_of_mem_opcodeTable r hr
    exact ⟨form w, hform w hsel⟩

/-- Two rows of the opcode map differ in a bit that both masks keep. -/
theorem opcodeTable_pairwise : opcodeTable.Pairwise fun r r' => r.bits &&& r'.mask ≠ r'.bits &&& r.mask := by decide

/-- A word that selects two rows agrees with both on the bits that both masks keep. -/
theorem bits_and_mask_comm {r r' : OpcodeRow} {w : Word} (h : r.selectedBy w = true) (h' : r'.selectedBy w = true) :
    r.bits &&& r'.mask = r'.bits &&& r.mask := by
  rw [← beq_iff_eq.mp h, ← beq_iff_eq.mp h']
  rw [BitVec.and_assoc, BitVec.and_assoc, BitVec.and_comm r.mask]

/-- No word selects two rows: the rows selected by `w` are pairwise different on a bit where all agree with `w`. -/
theorem length_selected_le_one (w : Word) : (opcodeTable.filter fun r => r.selectedBy w).length ≤ 1 := by
  have hpair := opcodeTable_pairwise.filter fun r => r.selectedBy w
  have hsel : ∀ r ∈ opcodeTable.filter fun r => r.selectedBy w, r.selectedBy w = true :=
    fun r hr => (List.mem_filter.mp hr).2
  generalize opcodeTable.filter (fun r => r.selectedBy w) = rows at hpair hsel ⊢
  match rows with
  | [] => exact Nat.zero_le 1
  | [_] => exact Nat.le_refl 1
  | r :: r' :: _ =>
    have hne := List.rel_of_pairwise_cons hpair (List.mem_cons_self ..)
    exact absurd (bits_and_mask_comm (hsel r (by simp)) (hsel r' (by simp))) hne

/-- Settles O9: an accepted word is an encoding, which selects its row; a selected row decodes to its form. -/
theorem decoderMatchesOpcodeMap : Obligations.DecoderMatchesOpcodeMap :=
  fun w => ⟨exists_decode_iff_legalWord, length_selected_le_one w⟩

/-- Settles O6: each word is the encoding of its instruction. -/
theorem sampleWordsDecode : Obligations.SampleWordsDecode :=
  ⟨decode_encode .cls, decode_encode .ret, decode_encode (.call 0x300), decode_encode (.se 0xA 0x10),
    decode_encode (.add 0xA 0x0B), decode_encode (.subn 0xA 0xB), decode_encode (.ldI 0x20E),
    decode_encode (.drw 0 1 2)⟩

/-! ### The frame of a word that decodes (30_encoding.md R63, 60_exceptions.md R172) -/

/-- A frame whose word decodes runs the instruction in the ticked state. -/
theorem step_of_decode {s : State} {w : Word} {i : Instr} (h : Ready s) (hw : WordAtPc s w) (hd : decode w = .ok i) :
    step s = exec i (afterTick s) := by
  obtain ⟨hr, ho⟩ := h
  obtain ⟨hp, rfl⟩ := hw
  rcases step_cases s with ⟨hnr, _⟩ | ⟨_, hc, _⟩ | ⟨_, _, hlt, _⟩ |
    ⟨_, _, _, _, _, rfl, he, _⟩ | ⟨_, _, _, _, _, rfl, hi, e⟩
  · exact absurd hr hnr
  · exact nomatch hc.symm.trans ho
  · omega
  · exact nomatch he.symm.trans hd
  · cases hi.symm.trans hd
    exact e

/-- Settles O10: the bytes at PC are the word the frame decodes. -/
theorem stepRunsDecodedInstruction : Obligations.StepRunsDecodedInstruction :=
  fun _ _ _ h hp hd => step_of_decode h ⟨hp, rfl⟩ (decodeBytes_eq_ok_iff.mp hd)

end Sys2Proof.Machine

namespace Sys2Proof.Machine

/-! ### Control transfer (40_flow.md R80 to R83) -/

/-- A write to PC is seen nowhere else (40_flow.md R81). -/
theorem keepsAllButPc_setPc (a : Word) (s : State) : KeepsAllButPc s (setPc a s) where
  regs _ _ := rfl
  rest := {
    block := ⟨rfl, rfl, rfl, rfl, rfl, rfl, rfl, fun _ => rfl⟩
    i := rfl
    stack := ⟨rfl, rfl⟩
    screen := ⟨rfl, rfl⟩
    draws := ⟨rfl, rfl⟩ }

/-- A change of PC, SP and the stack is seen nowhere else (40_flow.md R80, R82). -/
theorem keeps_control_update (s : State) (pc : Word) (sp : Fin 17) (stack : Vector Word 16) :
    let t := { s with pc := pc, sp := sp, stack := stack }
    KeepsRegs [] s t ∧ KeepsBlock s t ∧ t.i = s.i ∧ KeepsScreen s t ∧ KeepsDraws s t :=
  ⟨fun _ _ => rfl, ⟨rfl, rfl, rfl, rfl, rfl, rfl, rfl, fun _ => rfl⟩, rfl, ⟨rfl, rfl⟩, ⟨rfl, rfl⟩⟩

theorem exec_jp (nnn : Addr12) (s : State) : exec (.jp nnn) s = .next (setPc (addrOperand nnn) s) := rfl

theorem exec_jpV0 (nnn : Addr12) (s : State) :
    exec (.jpV0 nnn) s = .next (setPc (indexedTarget nnn (readV s 0)) s) := rfl

/-- Settles O23: RET pops the entry CALL wrote at the old SP, and CALL wrote no other entry. -/
theorem callThenRetReturns : Obligations.CallThenRetReturns := by
  intro nnn s hsp
  let stack := s.stack.set s.sp.val (s.pc + 2) hsp
  have hpopped : stack[s.sp.val] = s.pc + 2 := Vector.getElem_set_self hsp
  obtain ⟨hregs, hblock, -⟩ := keeps_control_update s stack[s.sp.val] s.sp stack
  refine ⟨_, _, exec_call_of_lt hsp, exec_ret_of_pos (Nat.succ_pos _), hpopped, rfl, fun k hk => ?_, hregs, hblock⟩
  exact Vector.getElem_set_ne hsp k.isLt hk.ne'

/-- Settles O19: the two branches of RET; a pop moves SP and leaves the entries. -/
theorem retPopsReturnAddress : Obligations.RetPopsReturnAddress := by
  refine ⟨rowDecodes_word .ret, fun s hpos => ?_, fun s hempty => ?_⟩
  · exact ⟨_, exec_ret_of_pos hpos, rfl, rfl, rfl, keeps_control_update s _ _ s.stack⟩
  · exact ⟨_, exec_ret_of_empty hempty, faultedWith_raise _ s⟩

/-- Settles O20: JP is one write to PC. -/
theorem jpSetsPc : Obligations.JpSetsPc :=
  ⟨rowDecodes_formA .jp fun _ => rfl,
    fun nnn s => ⟨_, exec_jp nnn s, addrOperand_toNat nnn, keepsAllButPc_setPc _ s⟩⟩

/-- Settles O21: the two branches of CALL; a push writes the entry at SP and no other. -/
theorem callPushesReturnAddress : Obligations.CallPushesReturnAddress := by
  refine ⟨rowDecodes_formA .call fun _ => rfl, fun nnn s hlt => ?_, fun nnn s hfull => ?_⟩
  · refine ⟨_, exec_call_of_lt hlt, addrOperand_toNat nnn, rfl, ?_, fun k hk => ?_, keeps_control_update s _ _ _⟩
    · exact (congrArg BitVec.toNat (Vector.getElem_set_self hlt)).trans (BitVec.toNat_add s.pc 2)
    · exact Vector.getElem_set_ne hlt k.isLt hk.symm
  · exact ⟨_, exec_call_of_full hfull, faultedWith_raise _ s⟩

/-- Settles O22: JP V0 is one write to PC, and its sum stays below 65536. -/
theorem jpV0AddsV0 : Obligations.JpV0AddsV0 :=
  ⟨rowDecodes_formA .jpV0 fun _ => rfl,
    fun nnn s => ⟨_, exec_jpV0 nnn s, indexedTarget_toNat nnn _, keepsAllButPc_setPc _ s⟩⟩

end Sys2Proof.Machine

namespace Sys2Proof.Machine

/-! ### Conditional skips (41_skip.md R90 to R94) -/

/-- A skip that is taken passes over one instruction (41_skip.md R94). -/
theorem skipIf_true_pc_toNat (s : State) : (skipIf true s).pc.toNat = (s.pc.toNat + 4) % 65536 :=
  BitVec.toNat_add s.pc 4

/-- A skip that is not taken goes on to the next instruction (41_skip.md R94). -/
theorem skipIf_false_pc_toNat (s : State) : (skipIf false s).pc.toNat = (s.pc.toNat + 2) % 65536 :=
  BitVec.toNat_add s.pc 2

theorem exec_se (x : RegIdx) (kk : Byte) (s : State) :
    exec (.se x kk) s = .next (skipIf (readV s x == kk) s) := rfl

theorem exec_sne (x : RegIdx) (kk : Byte) (s : State) :
    exec (.sne x kk) s = .next (skipIf (readV s x != kk) s) := rfl

theorem exec_seReg (x y : RegIdx) (s : State) :
    exec (.seReg x y) s = .next (skipIf (readV s x == readV s y) s) := rfl

theorem exec_sneReg (x y : RegIdx) (s : State) :
    exec (.sneReg x y) s = .next (skipIf (readV s x != readV s y) s) := rfl

/-- An instruction that is a conditional skip on the test `c` skips when `p` makes the test true, goes on when `q` makes it
false, and writes PC alone. -/
theorem exec_of_skipIf {i : Instr} {s : State} {c : Bool} {p q : Prop} (h : exec i s = .next (skipIf c s))
    (hskip : p → c = true) (hnext : q → c = false) :
    ∃ t, exec i s = .next t ∧
      (p → t.pc.toNat = (s.pc.toNat + 4) % 65536) ∧
      (q → t.pc.toNat = (s.pc.toNat + 2) % 65536) ∧ KeepsAllButPc s t := by
  refine ⟨_, h, fun hp => ?_, fun hq => ?_, keepsAllButPc_setPc _ s⟩
  · rw [hskip hp, skipIf_true_pc_toNat]
  · rw [hnext hq, skipIf_false_pc_toNat]

/-- Settles O24: SE is a skip on the test that Vx is the immediate. -/
theorem seSkipsOnEqual : Obligations.SeSkipsOnEqual :=
  ⟨rowDecodes_formI .se fun _ _ => rfl,
    fun x kk s => exec_of_skipIf (exec_se x kk s) beq_iff_eq.mpr beq_eq_false_iff_ne.mpr⟩

/-- Settles O25: SNE is a skip on the test that Vx is not the immediate. -/
theorem sneSkipsOnDifferent : Obligations.SneSkipsOnDifferent :=
  ⟨rowDecodes_formI .sne fun _ _ => rfl,
    fun x kk s => exec_of_skipIf (exec_sne x kk s) bne_iff_ne.mpr bne_eq_false_iff_eq.mpr⟩

/-! ### The register skips need a low nibble 0 (45_illegal.md R144) -/

theorem decode_of_op5 {w : Word} (hop : opOf w = 0x5) : decode w = decodeGroup5 w := by
  simp [decode, hop]

theorem decode_of_op9 {w : Word} (hop : opOf w = 0x9) : decode w = decodeGroup9 w := by
  simp [decode, hop]

theorem decodeGroup5_ne_ok {w : Word} (hn : subOpOf w ≠ 0) (i : Instr) : decodeGroup5 w ≠ .ok i := by
  rw [decodeGroup5, if_neg hn]
  exact nofun

theorem decodeGroup9_ne_ok {w : Word} (hn : subOpOf w ≠ 0) (i : Instr) : decodeGroup9 w ≠ .ok i := by
  rw [decodeGroup9, if_neg hn]
  exact nofun

/-- Settles O26: SE is a skip on the test that the registers are equal, and group 5 decodes for the low nibble 0 alone. -/
theorem seRegSkipsOnEqual : Obligations.SeRegSkipsOnEqual :=
  ⟨rowDecodes_formR .seReg fun _ _ => rfl,
    fun _ hop hn => decode_of_op5 hop ▸ decodeGroup5_ne_ok hn,
    fun x y s => exec_of_skipIf (exec_seReg x y s) beq_iff_eq.mpr beq_eq_false_iff_ne.mpr⟩

/-- Settles O27: SNE is a skip on the test that the registers differ, and group 9 decodes for the low nibble 0 alone. -/
theorem sneRegSkipsOnDifferent : Obligations.SneRegSkipsOnDifferent :=
  ⟨rowDecodes_formR .sneReg fun _ _ => rfl,
    fun _ hop hn => decode_of_op9 hop ▸ decodeGroup9_ne_ok hn,
    fun x y s => exec_of_skipIf (exec_sneReg x y s) bne_iff_ne.mpr bne_eq_false_iff_eq.mpr⟩

end Sys2Proof.Machine

namespace Sys2Proof.Machine

/-! ### Immediates, index, random (42_load_imm.md R100 to R104) -/

theorem exec_ld (x : RegIdx) (kk : Byte) (s : State) : exec (.ld x kk) s = .next (writeResult x kk s) := rfl

theorem exec_add (x : RegIdx) (kk : Byte) (s : State) :
    exec (.add x kk) s = .next (writeResult x (wrapAdd (readV s x) kk) s) := rfl

theorem exec_ldI (nnn : Addr12) (s : State) :
    exec (.ldI nnn) s = .next (advance (setI (addrOperand nnn) s)) := rfl

theorem exec_rnd (x : RegIdx) (kk : Byte) (s : State) :
    exec (.rnd x kk) s = .next (writeResult x (draw8 s &&& kk) (drawn s)) := rfl

/-- PC arithmetic wraps modulo 65536 (10_state.md R17; spec decision D25, log 27). -/
theorem advance_pc_toNat (s : State) : (advance s).pc.toNat = (s.pc.toNat + 2) % 65536 := BitVec.toNat_add s.pc 2

theorem readV_writeResult_self (x : RegIdx) (r : Byte) (s : State) : readV (writeResult x r s) x = r :=
  readV_writeV_self x r s

/-- The destination is the only register a result reaches, VF included (10_state.md R11). -/
theorem keepsRegs_writeResult (x : RegIdx) (r : Byte) (s : State) : KeepsRegs [x] s (writeResult x r s) :=
  fun _ hq => readV_writeV_ne (List.ne_of_not_mem_cons hq) r s

/-- A change of the registers, I, PC and the draws is seen nowhere else. -/
theorem keeps_regs_index_draws_update (s : State) (v : Vector Byte 16) (i pc : Word) (rndIn : List Byte) (draws : Nat) :
    let t := { s with v := v, i := i, pc := pc, rndIn := rndIn, draws := draws }
    KeepsBlock s t ∧ KeepsStack s t ∧ KeepsScreen s t :=
  ⟨⟨rfl, rfl, rfl, rfl, rfl, rfl, rfl, fun _ => rfl⟩, ⟨rfl, rfl⟩, ⟨rfl, rfl⟩⟩

theorem keepsRest_writeResult (x : RegIdx) (r : Byte) (s : State) : KeepsRest s (writeResult x r s) :=
  let ⟨block, stack, screen⟩ := keeps_regs_index_draws_update s (s.v.set x r) s.i (s.pc + 2) s.rndIn s.draws
  { block, i := rfl, stack, screen, draws := ⟨rfl, rfl⟩ }

/-- An instruction that is one result write puts the result in its destination, goes on to the next instruction and leaves
the rest alone. -/
theorem exec_of_writeResult {i : Instr} {x : RegIdx} {r : Byte} {s : State}
    (h : exec i s = .next (writeResult x r s)) :
    ∃ t, exec i s = .next t ∧ readV t x = r ∧ KeepsRegs [x] s t ∧
      t.pc.toNat = (s.pc.toNat + 2) % 65536 ∧ KeepsRest s t :=
  ⟨_, h, readV_writeResult_self x r s, keepsRegs_writeResult x r s, advance_pc_toNat s, keepsRest_writeResult x r s⟩

/-- Settles O28: LD is one result write of the immediate. -/
theorem ldLoadsImmediate : Obligations.LdLoadsImmediate :=
  ⟨rowDecodes_formI .ld fun _ _ => rfl, fun x kk s => exec_of_writeResult (exec_ld x kk s)⟩

/-- Settles O29: ADD is one result write of the wrapped sum. -/
theorem addImmediateWrapsWithoutFlag : Obligations.AddImmediateWrapsWithoutFlag := by
  refine ⟨rowDecodes_formI .add fun _ _ => rfl, fun x kk s => ?_⟩
  obtain ⟨t, hexec, hread, hkeeps⟩ := exec_of_writeResult (exec_add x kk s)
  exact ⟨t, hexec, hread ▸ wrapAdd_toNat _ kk, hkeeps⟩

/-- Settles O30: LD I writes I and PC; that no other instruction writes I is read off `InstrChanges`. -/
theorem ldILoadsIndex : Obligations.LdILoadsIndex := by
  refine ⟨rowDecodes_formA .ldI fun _ => rfl, fun nnn s => ?_, fun i s t h hne => ?_⟩
  · obtain ⟨hblock, hstack, hscreen⟩ :=
      keeps_regs_index_draws_update s s.v (addrOperand nnn) (s.pc + 2) s.rndIn s.draws
    exact ⟨_, exec_ldI nnn s, addrOperand_toNat nnn, advance_pc_toNat _, fun _ _ => rfl, hblock, hstack, hscreen,
      ⟨rfl, rfl⟩⟩
  · rcases (exec_changes h).index with e | ⟨nnn, e, -⟩
    · exact absurd e hne
    · exact ⟨nnn, e⟩

/-- A masked byte has no bit outside its mask (42_load_imm.md R104). -/
theorem and_and_not_mask (b kk : Byte) : b &&& kk &&& ~~~kk = 0 := by
  rw [BitVec.and_assoc, BitVec.and_not_self]
  exact BitVec.and_zero

/-- Settles O31: RND is one result write of the masked draw, after the draw is used up. -/
theorem rndMasksOneDraw : Obligations.RndMasksOneDraw := by
  refine ⟨rowDecodes_formI .rnd fun _ _ => rfl, fun x kk s => ?_⟩
  have hread := readV_writeResult_self x (draw8 s &&& kk) (drawn s)
  obtain ⟨hblock, hstack, hscreen⟩ :=
    keeps_regs_index_draws_update s (s.v.set x (draw8 s &&& kk)) s.i (s.pc + 2) s.rndIn.tail (s.draws + 1)
  refine ⟨_, exec_rnd x kk s, hread, ?_, fun b rest hlisted => ⟨?_, ?_⟩, fun hnone => ?_, rfl,
    keepsRegs_writeResult x _ (drawn s), advance_pc_toNat _, hblock, rfl, hstack, hscreen⟩
  · rw [hread, and_and_not_mask]
  · rw [hread, draw8_cons hlisted]
  · exact congrArg List.tail hlisted
  · exact congrArg List.tail hnone

end Sys2Proof.Machine

namespace Sys2Proof.Machine

/-! ### The ALU (43_alu.md R110 to R119): the instructions as register writes -/

theorem exec_ldReg (x y : RegIdx) (s : State) : exec (.ldReg x y) s = .next (writeResult x (readV s y) s) := rfl

theorem exec_or (x y : RegIdx) (s : State) :
    exec (.or x y) s = .next (writeResult x (readV s x ||| readV s y) s) := rfl

theorem exec_and (x y : RegIdx) (s : State) :
    exec (.and x y) s = .next (writeResult x (readV s x &&& readV s y) s) := rfl

theorem exec_xor (x y : RegIdx) (s : State) :
    exec (.xor x y) s = .next (writeResult x (readV s x ^^^ readV s y) s) := rfl

theorem exec_addReg (x y : RegIdx) (s : State) : exec (.addReg x y) s =
    .next (writeResultThenFlag x (wrapAdd (readV s x) (readV s y)) (carryFlag (readV s x) (readV s y)) s) := rfl

theorem exec_sub (x y : RegIdx) (s : State) : exec (.sub x y) s =
    .next (writeFlagThenResult x (wrapSub (readV s x) (readV s y)) (subFlag (readV s x) (readV s y)) s) := rfl

theorem exec_shr (x y : RegIdx) (s : State) : exec (.shr x y) s =
    .next (writeFlagThenResult x (shiftRight1 (readV s x)) (shrFlag (readV s x)) s) := rfl

theorem exec_subn (x y : RegIdx) (s : State) : exec (.subn x y) s =
    .next (writeFlagThenResult y (wrapSub (readV s y) (readV s x)) (subnFlag (readV s x) (readV s y)) s) := rfl

theorem exec_shl (x y : RegIdx) (s : State) : exec (.shl x y) s =
    .next (writeFlagThenResult x (shiftLeft1 (readV s x)) (shlFlag (readV s x)) s) := rfl

/-! ### Results and flags as numbers (43_alu.md R115 to R119) -/

/-- The wrapped difference over the integers, where a borrow is seen. -/
theorem wrapSub_toInt (a b : Byte) : ((wrapSub a b).toNat : Int) = (a.toNat - b.toNat : Int) % 256 := by
  have hb := b.isLt
  rw [wrapSub_toNat]
  omega

theorem flagByte_decide (p : Prop) [Decidable p] : flagByte (decide p) = if p then 1 else 0 := by
  simp only [flagByte, decide_eq_true_eq]

theorem flagByte_not (b : Bool) : flagByte (!b) = if b then 0 else 1 := by cases b <;> rfl

theorem carryFlag_eq (a b : Byte) : carryFlag a b = if a.toNat + b.toNat > 255 then 1 else 0 := flagByte_decide _

theorem subFlag_eq (a b : Byte) : subFlag a b = if a.toNat > b.toNat then 1 else 0 := flagByte_decide _

theorem subnFlag_eq (a b : Byte) : subnFlag a b = if a.toNat ≥ b.toNat then 0 else 1 := by
  simp only [subnFlag, flagByte_not, decide_eq_true_eq]

/-- A flag that is a bit of a byte, as the quotient and remainder that select the bit. -/
theorem flagByte_getLsbD_toNat (a : Byte) (k : Nat) : (flagByte (a.getLsbD k)).toNat = a.toNat / 2 ^ k % 2 := by
  have hflag : ∀ b : Bool, (flagByte b).toNat = b.toNat := by decide
  rw [hflag, BitVec.getLsbD, Nat.toNat_testBit]

theorem shrFlag_toNat (a : Byte) : (shrFlag a).toNat = a.toNat % 2 := by
  rw [shrFlag, flagByte_getLsbD_toNat, Nat.pow_zero, Nat.div_one]

theorem shlFlag_toNat (a : Byte) : (shlFlag a).toNat = a.toNat / 128 := by
  have hquot : a.toNat / 2 ^ 7 < 2 := Nat.div_lt_of_lt_mul a.isLt
  exact (flagByte_getLsbD_toNat a 7).trans (Nat.mod_eq_of_lt hquot)

/-! ### One result write -/

/-- Settles O32: LD is one result write of the other register. -/
theorem ldRegCopies : Obligations.LdRegCopies :=
  ⟨rowDecodes_formR .ldReg fun _ _ => rfl, fun x y s => exec_of_writeResult (exec_ldReg x y s)⟩

/-- A result write whose bits are `op` of the bits of `a` and `c` puts those bits in its destination. -/
theorem exec_of_bitwise (op : Bool → Bool → Bool) {i : Instr} {x : RegIdx} {r a c : Byte} {s : State}
    (h : exec i s = .next (writeResult x r s)) (hbits : ∀ b, r.getLsbD b = op (a.getLsbD b) (c.getLsbD b)) :
    ∃ t, exec i s = .next t ∧ (∀ b < 8, (readV t x).getLsbD b = op (a.getLsbD b) (c.getLsbD b)) ∧
      KeepsRegs [x] s t ∧ t.pc.toNat = (s.pc.toNat + 2) % 65536 ∧ KeepsRest s t := by
  obtain ⟨t, hexec, hread, hkeeps⟩ := exec_of_writeResult h
  exact ⟨t, hexec, fun b _ => hread ▸ hbits b, hkeeps⟩

/-- Settles O33: OR, AND and XOR are one result write of the bitwise operation. -/
theorem logicIsBitwiseWithoutFlag : Obligations.LogicIsBitwiseWithoutFlag := by
  refine ⟨rowDecodes_formR .or fun _ _ => rfl, rowDecodes_formR .and fun _ _ => rfl,
    rowDecodes_formR .xor fun _ _ => rfl, fun x y s => ⟨?_, ?_, ?_⟩⟩
  · exact exec_of_bitwise or (exec_or x y s) fun _ => BitVec.getLsbD_or
  · exact exec_of_bitwise and (exec_and x y s) fun _ => BitVec.getLsbD_and
  · exact exec_of_bitwise bne (exec_xor x y s) fun _ => BitVec.getLsbD_xor

/-! ### A result and a flag: the later write stands (43_alu.md R110; spec decision D13, log 13) -/

/-- An instruction that writes `f` to `e` and then `r` to `d` leaves `r` in `d`, also when the two are one register, and
`f` in `e` when they are not. -/
theorem exec_of_two_writes {i : Instr} {d e : RegIdx} {r f : Byte} {s : State}
    (h : exec i s = .next (writeResult d r (writeV e f s))) :
    ∃ t, exec i s = .next t ∧ readV t d = r ∧ (e ≠ d → readV t e = f) ∧ KeepsRegs [d, e] s t ∧
      t.pc.toNat = (s.pc.toNat + 2) % 65536 ∧ KeepsRest s t := by
  obtain ⟨hblock, hstack, hscreen⟩ :=
    keeps_regs_index_draws_update s ((s.v.set e f).set d r) s.i (s.pc + 2) s.rndIn s.draws
  refine ⟨_, h, readV_writeResult_self d r _, fun hne => ?_, fun q hq => ?_, advance_pc_toNat _,
    { block := hblock, i := rfl, stack := hstack, screen := hscreen, draws := ⟨rfl, rfl⟩ }⟩
  · exact (readV_writeV_ne hne r _).trans (readV_writeV_self e f s)
  · obtain ⟨hd, he⟩ : q ≠ d ∧ q ≠ e := by simpa using hq
    exact (readV_writeV_ne hd r _).trans (readV_writeV_ne he f s)

/-- The order of 8xy5, 8xy6, 8xy7 and 8xyE: the result stands in `d` also when `d` is VF, which then holds no flag. -/
theorem exec_of_flagThenResult {i : Instr} {d : RegIdx} {r f : Byte} {s : State}
    (h : exec i s = .next (writeFlagThenResult d r f s)) :
    ∃ t, exec i s = .next t ∧ readV t d = r ∧ (d ≠ vF → readV t vF = f) ∧ KeepsRegs [d, vF] s t ∧
      t.pc.toNat = (s.pc.toNat + 2) % 65536 ∧ KeepsRest s t := by
  obtain ⟨t, hexec, hresult, hflag, hkeeps⟩ := exec_of_two_writes h
  exact ⟨t, hexec, hresult, fun hd => hflag hd.symm, hkeeps⟩

/-- Settles O34: the carry is the later write, so VF holds it whatever the destination is. -/
theorem addRegSetsCarry : Obligations.AddRegSetsCarry := by
  refine ⟨rowDecodes_formR .addReg fun _ _ => rfl, fun x y s => ?_⟩
  obtain ⟨t, hexec, hflag, hresult, hregs, hkeeps⟩ := exec_of_two_writes (exec_addReg x y s)
  exact ⟨t, hexec, fun hx => hresult hx ▸ wrapAdd_toNat _ _, hflag.trans (carryFlag_eq _ _),
    fun q hq => hregs q (mt (List.Perm.swap _ _ _).mem_iff.mp hq), hkeeps⟩

/-- Settles O35: SUB is the strict flag, then the wrapped difference. -/
theorem subSetsStrictFlag : Obligations.SubSetsStrictFlag := by
  refine ⟨rowDecodes_formR .sub fun _ _ => rfl, fun x y s => ?_⟩
  obtain ⟨t, hexec, hresult, hflag, hkeeps⟩ := exec_of_flagThenResult (exec_sub x y s)
  exact ⟨t, hexec, hresult ▸ wrapSub_toInt _ _, fun hx => (hflag hx).trans (subFlag_eq _ _), hkeeps⟩

/-- Settles O36: SHR is the flag of bit 0, then the half. -/
theorem shrCapturesLowBit : Obligations.ShrCapturesLowBit := by
  refine ⟨rowDecodes_formR .shr fun _ _ => rfl, fun x y s => ?_⟩
  obtain ⟨t, hexec, hresult, hflag, hkeeps⟩ := exec_of_flagThenResult (exec_shr x y s)
  exact ⟨t, hexec, hresult ▸ shiftRight1_toNat _, fun hx => hflag hx ▸ shrFlag_toNat _, hkeeps⟩

/-- Settles O37: SUBN is its flag, then the wrapped difference, both with Vy as the destination. -/
theorem subnWritesVy : Obligations.SubnWritesVy := by
  refine ⟨rowDecodes_formR .subn fun _ _ => rfl, fun x y s => ?_⟩
  obtain ⟨t, hexec, hresult, hflag, hkeeps⟩ := exec_of_flagThenResult (exec_subn x y s)
  exact ⟨t, hexec, hresult ▸ wrapSub_toInt _ _, fun hy => (hflag hy).trans (subnFlag_eq _ _), hkeeps⟩

/-- Settles O38: SHL is the flag of bit 7, then the double modulo 256. -/
theorem shlCapturesHighBit : Obligations.ShlCapturesHighBit := by
  refine ⟨rowDecodes_formR .shl fun _ _ => rfl, fun x y s => ?_⟩
  obtain ⟨t, hexec, hresult, hflag, hkeeps⟩ := exec_of_flagThenResult (exec_shl x y s)
  exact ⟨t, hexec, hresult ▸ shiftLeft1_toNat _, fun hx => hflag hx ▸ shlFlag_toNat _, hkeeps⟩

end Sys2Proof.Machine

namespace Sys2Proof.Machine

/-! ### The display (44_display.md R130 to R133) -/

theorem exec_cls (s : State) : exec .cls s = .next (present (advance (dispClear s))) := rfl

/-- A change of the registers, PC, the framebuffer and the ports is seen nowhere else. -/
theorem keeps_regs_screen_update (s : State) (v : Vector Byte 16) (pc : Word) (fb : Framebuffer)
    (pulses : List PortPulse) :
    let t := { s with v := v, pc := pc, fb := fb, pulses := pulses }
    t.i = s.i ∧ KeepsStack s t ∧ KeepsBlock s t ∧ KeepsDraws s t :=
  ⟨rfl, ⟨rfl, rfl⟩, ⟨rfl, rfl, rfl, rfl, rfl, rfl, rfl, fun _ => rfl⟩, ⟨rfl, rfl⟩⟩

/-- The pulses of a CLS: one clear, then one present (44_display.md R130, R133; spec decision D20, log 20). -/
theorem exec_cls_pulses {s t : State} (h : exec .cls s = .next t) :
    t.pulses = s.pulses ++ [.dispClear] ++ [.dispPresent] := by
  cases h
  rfl

/-- Settles O41: CLS leaves the cleared framebuffer, whose pixels are all off. -/
theorem clsClearsEveryPixel : Obligations.ClsClearsEveryPixel :=
  ⟨rowDecodes_word .cls, fun s =>
    ⟨_, exec_cls s, fun _ _ hx hy => getPixel_clearedFb hx hy,
      (exec_cls_pulses (exec_cls s)).trans (List.append_assoc _ _ _), advance_pc_toNat _, fun _ _ => rfl,
      keeps_regs_screen_update s s.v _ _ _⟩⟩

/-! ### The sprite a DRW draws (44_display.md R131, R132) -/

/-- A 1 bit lands on a position of the grid exactly when that pixel is in the list the blit works through. -/
theorem spriteCovers_iff_mem {m : Memory} {base n : Nat} {vx vy : Byte} (p : Pixel) :
    SpriteCovers m base n vx vy p.px.val p.py.val ↔ p ∈ spritePixels m base n vx vy := by
  have hpos (r c : Nat) : p.px.val = (vx.toNat + c) % 64 ∧ p.py.val = (vy.toNat + r) % 32 ↔
      spritePixel vx vy r c = p := by
    obtain ⟨px, py⟩ := p
    simp only [spritePixel, Pixel.mk.injEq, Fin.ext_iff, Fin.ofNat, eq_comm]
  simp only [SpriteCovers, mem_spritePixels, spriteBit, hpos]

section
variable {x y : RegIdx} {n : Fin 16} {s : State} {px py : Nat}

/-- A 1 bit of the sprite that `DRW x, y, n` draws from `s` lands on column `px`, row `py`. -/
abbrev DrawCovers (x y : RegIdx) (n : Fin 16) (s : State) (px py : Nat) : Prop :=
  SpriteCovers s.mem s.i.toNat n.val (readV s x) (readV s y) px py

/-- Both coordinates wrap, so a sprite stays in the grid (44_display.md R132 point 3). -/
theorem DrawCovers.inGrid (h : DrawCovers x y n s px py) : px < 64 ∧ py < 32 := by
  obtain ⟨r, c, -, -, -, rfl, rfl⟩ := h
  exact ⟨Nat.mod_lt _ (by decide), Nat.mod_lt _ (by decide)⟩

/-- The pixels a DRW works through are distinct: a sprite has at most 15 rows (44_display.md R132 point 8). -/
theorem drawnPixels_nodup (x y : RegIdx) (n : Fin 16) (s : State) :
    (spritePixels s.mem s.i.toNat n.val (readV s x) (readV s y)).Nodup :=
  spritePixels_nodup _ _ (by omega) _ _

theorem getPixel_drawSprite_of_covers (h : DrawCovers x y n s px py) :
    getPixel (drawSprite x y n.val s).fb px py = !getPixel s.fb px py := by
  obtain ⟨hx, hy⟩ := h.inGrid
  have hblit := xorBlit_fb (drawnPixels_nodup x y n s) s.fb ⟨⟨px, hx⟩, ⟨py, hy⟩⟩
  rwa [if_pos ((spriteCovers_iff_mem _).mp h)] at hblit

theorem getPixel_drawSprite_of_not_covers (hx : px < 64) (hy : py < 32) (h : ¬ DrawCovers x y n s px py) :
    getPixel (drawSprite x y n.val s).fb px py = getPixel s.fb px py := by
  have hblit := xorBlit_fb (drawnPixels_nodup x y n s) s.fb ⟨⟨px, hx⟩, ⟨py, hy⟩⟩
  rwa [if_neg (mt (spriteCovers_iff_mem _).mpr h)] at hblit

theorem readV_drawSprite_vF (x y : RegIdx) (n : Nat) (s : State) : readV (drawSprite x y n s) vF =
    flagByte (xorBlit (spritePixels s.mem s.i.toNat n (readV s x) (readV s y)) s.fb).hit :=
  (readV_drawSprite x y n s vF).trans (if_pos rfl)

/-- A 1 bit that lands on a pixel that is on is a collision (44_display.md R132 point 5). -/
theorem vF_drawSprite_of_collision (h : DrawCovers x y n s px py) (hon : getPixel s.fb px py = true) :
    readV (drawSprite x y n.val s) vF = 1 := by
  obtain ⟨hx, hy⟩ := h.inGrid
  have hhit := (xorBlit_hit (drawnPixels_nodup x y n s) s.fb).mpr
    ⟨⟨⟨px, hx⟩, ⟨py, hy⟩⟩, (spriteCovers_iff_mem _).mp h, hon⟩
  rw [readV_drawSprite_vF, hhit]
  rfl

theorem vF_drawSprite_of_no_collision (h : ∀ px py, DrawCovers x y n s px py → getPixel s.fb px py ≠ true) :
    readV (drawSprite x y n.val s) vF = 0 := by
  have hmiss := mt (xorBlit_hit (drawnPixels_nodup x y n s) s.fb).mp
    fun ⟨p, hp, hon⟩ => h _ _ ((spriteCovers_iff_mem p).mpr hp) hon
  rw [readV_drawSprite_vF, Bool.eq_false_iff.mpr hmiss]
  rfl

/-- A DRW writes no register but VF (44_display.md R131). -/
theorem keepsRegs_drawSprite (x y : RegIdx) (n : Nat) (s : State) : KeepsRegs [vF] s (drawSprite x y n s) :=
  fun r hr => (readV_drawSprite x y n s r).trans (if_neg (List.ne_of_not_mem_cons hr))

/-- The first draw leaves memory and I, so a second one with the same Vx and Vy lands on the same pixels. -/
theorem drawCovers_drawSprite (hx : readV (drawSprite x y n.val s) x = readV s x)
    (hy : readV (drawSprite x y n.val s) y = readV s y) :
    DrawCovers x y n (drawSprite x y n.val s) px py ↔ DrawCovers x y n s px py := by
  rw [DrawCovers, hx, hy]
  exact Iff.rfl

end

/-- Settles O42: a covered pixel is inverted and another is left alone, so a pixel goes from on to off exactly when it is
covered and on. -/
theorem drwInvertsSpritePixels : Obligations.DrwInvertsSpritePixels := by
  refine ⟨rowDecodes_formS .drw fun _ _ _ => rfl, fun x y n s hfits => ?_⟩
  refine ⟨_, exec_drw_of_fits hfits, fun px py hx hy =>
    ⟨getPixel_drawSprite_of_covers, getPixel_drawSprite_of_not_covers hx hy⟩, ?_, fun hstays => ?_,
    keepsRegs_drawSprite x y n.val s, advance_pc_toNat _, keeps_regs_screen_update s _ _ _ _⟩
  · rintro ⟨px, py, hx, hy, hon, hoff⟩
    refine vF_drawSprite_of_collision (px := px) (py := py) (Classical.byContradiction fun hcov => ?_) hon
    have hkept := getPixel_drawSprite_of_not_covers hx hy hcov
    exact nomatch hoff.symm.trans (hkept.trans hon)
  · refine vF_drawSprite_of_no_collision fun px py hcov hon => ?_
    obtain ⟨hx, hy⟩ := hcov.inGrid
    have hinv := getPixel_drawSprite_of_covers hcov
    rw [hon, hstays px py hx hy hon] at hinv
    exact nomatch hinv

/-- Settles O44: the calls of the blit over distinct pixels, then the present. -/
theorem drwCallsDisplayInOrder : Obligations.DrwCallsDisplayInOrder := by
  intro x y n s hfits
  refine ⟨_, exec_drw_of_fits hfits, ?_⟩
  rw [drawSprite_pulses, xorBlit_calls (drawnPixels_nodup x y n s)]

/-- Settles O45: a covered pixel is inverted twice, and it is on before one of the two draws. -/
theorem drwTwiceRestoresScreen : Obligations.DrwTwiceRestoresScreen := by
  intro x y n s hfits
  refine ⟨_, exec_drw_of_fits hfits, fun hvx hvy => ?_⟩
  have hsame {px py : Nat} := drawCovers_drawSprite (px := px) (py := py) hvx hvy
  refine ⟨_, exec_drw_of_fits hfits, fun px py hx hy => ?_, fun ⟨px, py, hcov⟩ => ?_, fun hnone => ⟨?_, ?_⟩⟩
  · by_cases hcov : DrawCovers x y n s px py
    · rw [getPixel_drawSprite_of_covers (hsame.mpr hcov), getPixel_drawSprite_of_covers hcov, Bool.not_not]
    · rw [getPixel_drawSprite_of_not_covers hx hy (mt hsame.mp hcov), getPixel_drawSprite_of_not_covers hx hy hcov]
  · cases hold : getPixel s.fb px py with
    | true => exact .inl (vF_drawSprite_of_collision hcov hold)
    | false =>
      have hnew := getPixel_drawSprite_of_covers hcov
      rw [hold] at hnew
      exact .inr (vF_drawSprite_of_collision (hsame.mpr hcov) hnew)
  · exact vF_drawSprite_of_no_collision fun px py hcov => absurd hcov (hnone px py)
  · exact vF_drawSprite_of_no_collision fun px py hcov => absurd (hsame.mp hcov) (hnone px py)

/-! ### The present requests (44_display.md R133) -/

/-- An instruction other than CLS and DRW uses no port. -/
theorem exec_pulses_of_not_display {i : Instr} {s t : State} (hcls : i ≠ .cls) (hdrw : ∀ x y n, i ≠ .drw x y n)
    (h : exec i s = .next t) : t.pulses = s.pulses := by
  cases i with
  | cls => exact absurd rfl hcls
  | drw x y n => exact absurd rfl (hdrw x y n)
  | ret => rcases exec_ret_cases s with ⟨_, e⟩ | ⟨_, e⟩ <;> rw [e] at h <;> cases h <;> rfl
  | call nnn => rcases exec_call_cases nnn s with ⟨_, e⟩ | ⟨_, e⟩ <;> rw [e] at h <;> cases h <;> rfl
  | _ => cases h; rfl

/-- A display instruction that completes uses the ports and then asks for its one present. -/
theorem exec_pulses_of_display {i : Instr} {s t : State} (hi : i = .cls ∨ ∃ x y n, i = .drw x y n)
    (h : exec i s = .next t) (hf : t.runState ≠ .faulted) :
    ∃ calls : List PortPulse, .dispPresent ∉ calls ∧ t.pulses = s.pulses ++ calls ++ [.dispPresent] := by
  rcases hi with rfl | ⟨x, y, n, rfl⟩
  · exact ⟨[.dispClear], by decide, exec_cls_pulses h⟩
  · rcases exec_drw_cases x y n s with ⟨_, e⟩ | ⟨_, _, e⟩ <;> rw [e] at h <;> cases h
    · refine ⟨_, fun hp => ?_, drawSprite_pulses x y n.val s⟩
      rcases mem_xorBlit_calls hp with ⟨_, _, hget⟩ | ⟨_, _, hset⟩
      · exact nomatch hget
      · exact nomatch hset
    · exact absurd rfl hf

/-- Settles O46: a fault keeps the ports, a display instruction that completes ends in its one present, and no other
instruction uses a port. -/
theorem presentOnlyAfterClsAndDrw : Obligations.PresentOnlyAfterClsAndDrw := by
  intro i s t hr h
  refine ⟨fun hf => ?_, fun hf hi => ?_, fun hcls hdrw => exec_pulses_of_not_display hcls hdrw h⟩
  · rcases exec_run h with ⟨hkept, -⟩ | ⟨e, rfl⟩
    · exact nomatch hf.symm.trans (hkept.trans hr)
    · exact raise_pulses e s
  · obtain ⟨calls, hcalls, hpulses⟩ := exec_pulses_of_display hi h hf
    rw [hpulses]
    simp [List.count_append, List.count_eq_zero_of_not_mem hcalls]

end Sys2Proof.Machine

namespace Sys2Proof.Machine

/-! ### The illegal words (45_illegal.md R140 to R145) -/

theorem decode_of_op0 {w : Word} (hop : opOf w = 0x0) : decode w = decodeGroup0 w := by
  simp [decode, hop]

theorem decode_of_op8 {w : Word} (hop : opOf w = 0x8) : decode w = decodeGroup8 w := by
  simp [decode, hop]

theorem decode_of_opE {w : Word} (hop : opOf w = 0xE) : decode w = decodeGroupE w := by
  simp [decode, hop]

theorem decode_of_opF {w : Word} (hop : opOf w = 0xF) : decode w = decodeGroupF w := by
  simp [decode, hop]

theorem decodeGroup0_ne_ok {w : Word} (hcls : w ≠ 0x00E0) (hret : w ≠ 0x00EE) (i : Instr) :
    decodeGroup0 w ≠ .ok i := by
  rw [decodeGroup0, if_neg hcls, if_neg hret]
  exact nofun

/-- The low nibbles of the nine group 8 instructions (30_encoding.md R65). -/
theorem subOpOf_of_decodeGroup8 {w : Word} {i : Instr} (h : decodeGroup8 w = .ok i) :
    subOpOf w ≤ 0x7 ∨ subOpOf w = 0xE := by
  unfold decodeGroup8 at h
  split at h <;> cases h
  case h_9 hn => exact .inr hn
  all_goals next hn => exact .inl (hn ▸ by decide)

/-- The low nibbles that group 8 leaves out are above 7 and not E (45_illegal.md R145). -/
theorem decodeGroup8_ne_ok {w : Word} (hn : subOpOf w = 0x8 ∨ subOpOf w = 0x9 ∨ subOpOf w = 0xA ∨ subOpOf w = 0xB ∨
    subOpOf w = 0xC ∨ subOpOf w = 0xD ∨ subOpOf w = 0xF) (i : Instr) : decodeGroup8 w ≠ .ok i := by
  intro h
  have hlegal := subOpOf_of_decodeGroup8 h
  revert hn hlegal
  generalize subOpOf w = n
  revert n
  decide

/-- Settles O14: groups E and F have no instruction, groups 5 and 9 one each, with the low nibble 0. -/
theorem keypadAndGroupWordsIllegal : Obligations.KeypadAndGroupWordsIllegal := by
  rintro w (hop | hop | ⟨hop | hop, hn⟩)
  · exact decode_of_opE hop ▸ decodeGroupE_ne_ok w
  · exact decode_of_opF hop ▸ decodeGroupF_ne_ok w
  · exact decode_of_op5 hop ▸ decodeGroup5_ne_ok hn
  · exact decode_of_op9 hop ▸ decodeGroup9_ne_ok hn

/-- A frame whose word does not decode raises the fault with that word in the ticked state (45_illegal.md R140). -/
theorem step_of_not_decode {s : State} {w : Word} (h : Ready s) (hw : WordAtPc s w) (hd : ∀ i, decode w ≠ .ok i) :
    step s = .next (raise (.unknownOpcode w) (afterTick s)) := by
  obtain ⟨hr, ho⟩ := h
  obtain ⟨hp, rfl⟩ := hw
  rcases step_cases s with ⟨hnr, _⟩ | ⟨_, hc, _⟩ | ⟨_, _, hlt, _⟩ |
    ⟨_, _, _, _, _, rfl, _, e⟩ | ⟨_, i, _, _, _, rfl, hi, _⟩
  · exact absurd hr hnr
  · exact nomatch hc.symm.trans ho
  · omega
  · exact e
  · exact absurd hi (hd i)

/-- Settles O13: the frame raises the fault of the word in the ticked state, and raising is precise; groups 0 and 8
decode for the words of their instructions alone. -/
theorem illegalWordsFault : Obligations.IllegalWordsFault := by
  refine ⟨fun s w h hw hd => ⟨_, step_of_not_decode h hw hd, faultedWith_raise _ _⟩, ?_⟩
  rintro w (⟨hop, hcls, hret⟩ | ⟨hop, hn⟩)
  · exact decode_of_op0 hop ▸ decodeGroup0_ne_ok hcls hret
  · exact decode_of_op8 hop ▸ decodeGroup8_ne_ok hn

end Sys2Proof.Machine

namespace Sys2Proof.Machine

/-! ### The frames of a halted, a stopping and a ticking machine (60_exceptions.md R155, R156, R171, R172) -/

/-- A machine that is not Running only begins the frame. -/
theorem step_of_halted {s : State} (h : s.runState ≠ .running) : step s = .next (beginFrame s) := by
  rcases step_cases s with ⟨_, e⟩ | ⟨hr, _⟩ | ⟨hr, _⟩ | ⟨_, _, hr, _⟩ | ⟨_, _, hr, _⟩
  · exact e
  all_goals exact absurd hr h

/-- A Running machine that samples 0 stops. -/
theorem step_of_closed {s : State} (hr : s.runState = .running) (hc : displayOpen s = false) :
    step s = .next (setRunState .stopped (sampled (beginFrame s))) := by
  rcases step_cases s with ⟨hnr, _⟩ | ⟨_, _, e⟩ | ⟨_, ho, _⟩ | ⟨_, _, _, ho, _⟩ | ⟨_, _, _, ho, _⟩
  · exact absurd hr hnr
  · exact e
  all_goals exact nomatch hc.symm.trans ho

/-- A frame that ticks raises a fault of the fetch or the decoder in the ticked state, or runs an instruction in it. -/
theorem step_ready_cases {s t : State} (h : Ready s) (hstep : step s = .next t) :
    (∃ e, t = raise e (afterTick s)) ∨ ∃ i, exec i (afterTick s) = .next t := by
  obtain ⟨hr, ho⟩ := h
  rcases step_cases s with ⟨hnr, _⟩ | ⟨_, hc, _⟩ | ⟨_, _, _, e⟩ | ⟨_, _, _, _, _, _, _, e⟩ | ⟨_, i, _, _, _, _, _, e⟩
  · exact absurd hr hnr
  · exact nomatch hc.symm.trans ho
  · cases hstep.symm.trans e; exact .inl ⟨_, rfl⟩
  · cases hstep.symm.trans e; exact .inl ⟨_, rfl⟩
  · exact .inr ⟨i, e.symm.trans hstep⟩

/-- Settles O11: an instruction answers a next state, and every other branch of the frame is one. -/
theorem everyStepAnswersNext : Obligations.EveryStepAnswersNext := by
  intro s
  rcases step_cases s with ⟨_, e⟩ | ⟨_, _, e⟩ | ⟨_, _, _, e⟩ | ⟨_, _, _, _, _, _, _, e⟩ | ⟨_, i, _, _, _, _, _, e⟩
  case inr.inr.inr.inr => exact e ▸ exec_next i (afterTick s)
  all_goals exact ⟨_, e⟩

/-- Settles O15: the frame takes the sample and writes the run state. -/
theorem closedDisplayStops : Obligations.ClosedDisplayStops :=
  fun _ hr hc => ⟨_, step_of_closed hr hc, rfl, rfl, rfl, fun _ _ => rfl, rfl, ⟨rfl, rfl⟩, rfl, rfl, rfl, rfl, rfl, rfl,
    fun _ => rfl, ⟨rfl, rfl⟩, rfl⟩

/-! ### Halted machines (60_exceptions.md R155, R156) -/

/-- The frames after the first find the port record empty already. -/
theorem run_succ_of_halted {s : State} (h : s.runState ≠ .running) (k : Nat) :
    Sys2Proof.core.run (k + 1) s = .next (beginFrame s) := by
  induction k generalizing s with
  | zero => exact run_of_step (step_of_halted h) rfl
  | succ k ih => exact run_of_step (step_of_halted h) (ih (s := beginFrame s) h)

/-- Settles O16: no frame leaves the state as it is, and any later number of frames empties the port record. -/
theorem haltedMachineIsAbsorbing : Obligations.HaltedMachineIsAbsorbing := by
  intro k s h
  cases k with
  | zero => exact ⟨s, rfl, rfl, nofun⟩
  | succ k => exact ⟨_, run_succ_of_halted h k, rfl, fun _ => rfl⟩

theorem step_keeps_halted {s t : State} (hs : s.runState ≠ .running) (h : step s = .next t) : t.runState ≠ .running := by
  cases h.symm.trans (step_of_halted hs)
  exact hs

/-- A run that ends Running began Running. -/
theorem running_of_run {k : Nat} {s t : State} (h : Sys2Proof.core.run k s = .next t) (ht : t.runState = .running) :
    s.runState = .running :=
  Classical.byContradiction fun hs =>
    run_induction (P := fun u => u.runState ≠ .running) (fun _ _ => step_keeps_halted) hs h ht

/-- A frame that ends Running ticked. -/
theorem ready_of_step_running {s t : State} (h : step s = .next t) (ht : t.runState = .running) : Ready s := by
  have hr : s.runState = .running := Classical.byContradiction fun hs => step_keeps_halted hs h ht
  refine ⟨hr, Bool.eq_true_of_not_eq_false fun hc => ?_⟩
  cases h.symm.trans (step_of_closed hr hc)
  cases ht

/-! ### Which instruction can raise what (60_exceptions.md R152, R153) -/

/-- The rows of 60_exceptions.md R152 for an instruction that runs: from `s`, `i` raises `e`. -/
inductive InstrRaises (s : State) : Instr → Exn → Prop where
  | ret (empty : s.sp.val = 0) : InstrRaises s .ret .stackUnderflow
  | call (nnn : Addr12) (full : s.sp.val = 16) : InstrRaises s (.call nnn) .stackOverflow
  | drw (x y : RegIdx) (n : Fin 16) (rows : 0 < n.val) (outside : 0xFFF < s.i.toNat + n.val - 1) :
    InstrRaises s (.drw x y n) (.addressOutOfRange 0x1000)

theorem exec_of_instrRaises {s : State} {i : Instr} {e : Exn} (h : InstrRaises s i e) :
    exec i s = .next (raise e s) := by
  cases h with
  | ret empty => exact exec_ret_of_empty empty
  | call nnn full => exact exec_call_of_full full
  | drw x y n rows outside => exact exec_drw_of_not_fits (by unfold SpriteFits; omega)

/-- An instruction that ends a Running machine Faulted raised the fault of its row. -/
theorem instrRaises_of_faulted {i : Instr} {s t : State} (hr : s.runState = .running) (h : exec i s = .next t)
    (hf : t.runState = .faulted) : ∃ e, InstrRaises s i e ∧ t = raise e s := by
  cases i with
  | ret =>
    rcases exec_ret_cases s with ⟨_, e⟩ | ⟨empty, e⟩ <;> rw [e] at h <;> cases h
    · exact nomatch hr.symm.trans hf
    · exact ⟨_, .ret empty, rfl⟩
  | call nnn =>
    rcases exec_call_cases nnn s with ⟨_, e⟩ | ⟨full, e⟩ <;> rw [e] at h <;> cases h
    · exact nomatch hr.symm.trans hf
    · exact ⟨_, .call nnn full, rfl⟩
  | drw x y n =>
    obtain ⟨rows, outside, rfl⟩ := exec_drw_faulted hr h hf
    exact ⟨_, .drw x y n rows outside, rfl⟩
  | _ => cases h; exact nomatch hr.symm.trans hf

theorem exec_faulted_iff {i : Instr} {s t : State} (hr : s.runState = .running) (h : exec i s = .next t) :
    t.runState = .faulted ↔ ∃ e, InstrRaises s i e := by
  constructor
  · intro hf
    obtain ⟨e, hraises, -⟩ := instrRaises_of_faulted hr h hf
    exact ⟨e, hraises⟩
  · rintro ⟨e, hraises⟩
    cases h.symm.trans (exec_of_instrRaises hraises)
    rfl

theorem exists_instrRaises_iff {i : Instr} {s : State} : (∃ e, InstrRaises s i e) ↔
    (i = .ret ∧ s.sp.val = 0) ∨ (∃ nnn, i = .call nnn ∧ s.sp.val = 16) ∨
    (∃ x y n, i = .drw x y n ∧ 0 < n.val ∧ 0xFFF < s.i.toNat + n.val - 1) := by
  constructor
  · rintro ⟨_, hraises⟩
    cases hraises with
    | ret empty => exact .inl ⟨rfl, empty⟩
    | call nnn full => exact .inr (.inl ⟨nnn, rfl, full⟩)
    | drw x y n rows outside => exact .inr (.inr ⟨x, y, n, rfl, rows, outside⟩)
  · rintro (⟨rfl, empty⟩ | ⟨nnn, rfl, full⟩ | ⟨x, y, n, rfl, rows, outside⟩)
    · exact ⟨_, .ret empty⟩
    · exact ⟨_, .call nnn full⟩
    · exact ⟨_, .drw x y n rows outside⟩

/-- Settles O17: an instruction faults by the rows of `InstrRaises`; the fetch and the decoder are O12 and O13, and a word
that decodes is executed. -/
theorem onlyListedFaults : Obligations.OnlyListedFaults := by
  obtain ⟨hillegal, -⟩ := illegalWordsFault
  refine ⟨tick_runState, fun i s t hr h => ⟨(exec_faulted_iff hr h).trans exists_instrRaises_iff, fun hf => ?_⟩,
    fun s h hp => ?_, hillegal, fun s w i => step_of_decode⟩
  · obtain ⟨e, hraises, rfl⟩ := instrRaises_of_faulted hr h hf
    refine ⟨e, faultedWith_raise e s, ?_⟩
    cases hraises with
    | ret => exact .inl ⟨rfl, rfl⟩
    | call nnn => exact .inr (.inl ⟨nnn, rfl, rfl⟩)
    | drw x y n => exact .inr (.inr ⟨x, y, n, rfl, _, rfl⟩)
  · obtain ⟨t, hstep, hfault⟩ := fetchAboveMemoryFaults s h hp
    exact ⟨t, _, hstep, hfault⟩

/-- Settles O18: the fetch, the decoder and an instruction all fault by `raise` in the ticked state, which is precise. -/
theorem faultsArePrecise : Obligations.FaultsArePrecise := by
  intro s t h hstep hf
  rcases step_ready_cases h hstep with ⟨e, rfl⟩ | ⟨i, hexec⟩
  · exact ⟨e, faultedWith_raise e _⟩
  · obtain ⟨e, -, rfl⟩ := instrRaises_of_faulted (s := afterTick s) h.running hexec hf
    exact ⟨e, faultedWith_raise e _⟩

/-! ### The tick and the Beeper (60_exceptions.md R160 to R165; spec decision D28, log 21) -/

/-- Settles O47: both counters are `countDown`, and the command and the tone are the test of `ST`. -/
theorem tickCountsDownAndCommandsBeeper : Obligations.TickCountsDownAndCommandsBeeper := fun s =>
  ⟨countDown_toNat s.dt, countDown_toNat s.st, fun h0 => by simp [h0], fun h0 => by simpa using h0, fun _ _ => rfl, rfl, rfl,
    ⟨rfl, rfl⟩, fun _ => rfl, rfl, ⟨rfl, rfl⟩, rfl, rfl, rfl, rfl⟩

/-- A frame has used no port but the Beeper's when its CPU step runs. -/
theorem afterTick_pulses (s : State) :
    (afterTick s).pulses = [if s.st = 0 then PortPulse.beepStop else .beepStart] := by
  split
  · next h0 => simp [afterTick, h0]
  · next h0 => simpa [afterTick] using h0

theorem afterTick_tone_iff (s : State) : (afterTick s).tone = true ↔ s.st ≠ 0 := bne_iff_ne

theorem beeperCommands_append (ps qs : List PortPulse) :
    beeperCommands (ps ++ qs) = beeperCommands ps ++ beeperCommands qs := List.filter_append ps qs

/-- The Display calls of a blit are no Beeper commands. -/
theorem beeperCommands_xorBlit_calls (ps : List Pixel) (fb : Framebuffer) :
    beeperCommands (xorBlit ps fb).calls = [] := by
  refine List.filter_eq_nil_iff.mpr fun c hc => ?_
  rcases mem_xorBlit_calls hc with ⟨_, _, rfl⟩ | ⟨_, _, rfl⟩
  · exact Bool.false_ne_true
  · exact Bool.false_ne_true

/-- An instruction adds port pulses, faulting or not, and no Beeper command among them. -/
theorem exec_adds_no_beeperCommands {i : Instr} {s t : State} (h : exec i s = .next t) :
    ∃ calls, t.pulses = s.pulses ++ calls ∧ beeperCommands calls = [] := by
  cases i with
  | cls => exact ⟨[.dispClear, .dispPresent], (exec_cls_pulses h).trans (List.append_assoc _ _ _), rfl⟩
  | drw x y n =>
    rcases exec_drw_cases x y n s with ⟨_, e⟩ | ⟨_, _, e⟩ <;> rw [e] at h <;> cases h
    · refine ⟨_, (drawSprite_pulses x y n.val s).trans (List.append_assoc _ _ _), ?_⟩
      rw [beeperCommands_append, beeperCommands_xorBlit_calls]
      rfl
    · exact ⟨[], (List.append_nil _).symm, rfl⟩
  | _ => exact ⟨[], (exec_pulses_of_not_display (by simp) (by simp) h).trans (List.append_nil _).symm, rfl⟩

/-- Settles O48: the tick issues the one command and sets the tone; what follows is a fault, which uses no port, or an
instruction, which commands no Beeper. -/
theorem oneBeeperCommandPerFrame : Obligations.OneBeeperCommandPerFrame := by
  intro s t h hstep
  rcases step_ready_cases h hstep with ⟨e, rfl⟩ | ⟨i, hexec⟩
  · exact ⟨[], afterTick_pulses s, rfl, afterTick_tone_iff s⟩
  · obtain ⟨calls, hpulses, hcalls⟩ := exec_adds_no_beeperCommands hexec
    obtain ⟨-, -, htone, -⟩ := exec_keeps hexec
    rw [afterTick_pulses] at hpulses
    exact ⟨calls, hpulses, hcalls, htone ▸ afterTick_tone_iff s⟩

/-- A frame that ends Running has counted both timers down once: no instruction writes them (60_exceptions.md R158). -/
theorem step_timers_of_running {s t : State} (h : step s = .next t) (ht : t.runState = .running) :
    t.dt = countDown s.dt ∧ t.st = countDown s.st := by
  rcases step_ready_cases (ready_of_step_running h ht) h with ⟨e, rfl⟩ | ⟨i, hexec⟩
  · cases ht
  · obtain ⟨hdt, hst, -⟩ := exec_keeps hexec
    exact ⟨hdt, hst⟩

/-- Settles O49: induction on the frames; each of them ends Running, since the last does. -/
theorem timersCountFrames : Obligations.TimersCountFrames := by
  intro k s t hclean
  obtain ⟨hrun, ht⟩ := hclean
  induction k generalizing s with
  | zero => cases hrun; exact ⟨rfl, rfl⟩
  | succ k ih =>
    obtain ⟨u, hstep, hrest⟩ := run_succ hrun
    obtain ⟨hdt, hst⟩ := step_timers_of_running hstep (running_of_run hrest ht)
    obtain ⟨ihdt, ihst⟩ := ih u hrest
    rw [hdt, countDown_toNat] at ihdt
    rw [hst, countDown_toNat] at ihst
    omega

/-! ### The Display's contract (60_exceptions.md R167 to R169) -/

/-- Settles O40: the three laws of the framebuffer. -/
theorem displayContract : Obligations.DisplayContract :=
  ⟨fun _ _ hx hy => getPixel_clearedFb hx hy, fun fb _ _ _ _ on hx hy hx' hy' => getPixel_setPixel fb hx hy on hx' hy',
    fun fb _ _ on h => setPixel_outside fb h on⟩

end Sys2Proof.Machine

namespace Sys2Proof.Machine

/-! ### The image the loader builds (70_reset_and_hazards.md R192, R193, R195) -/

/-- The image of an accepted program: the font, then the program, over an empty memory. -/
theorem build_of_length_le (font : Vector Byte 80) {program : List Byte} (h : program.length ≤ 3584) :
    build font program = .ok (storeBytes (storeBytes [] 0 font.toList) 0x200 program) := if_pos h

theorem build_of_length_gt (font : Vector Byte 80) {program : List Byte} (h : 3584 < program.length) :
    build font program = .error .programTooLarge := if_neg (Nat.not_le.mpr h)

/-- Above the font area an unlisted cell reads as 0. -/
theorem resetByte_of_ge {a : Nat} (h : 80 ≤ a) : resetByte a = 0 := if_neg (Nat.not_lt.mpr h)

section

variable {font : Vector Byte 80} {program : List Byte} {m : Memory} (h : build font program = .ok m)
  (hlen : program.length ≤ 3584)
include h hlen

/-- What the loader leaves in every cell: the program from 0x200 on, the font below 0x050, 0 elsewhere. -/
theorem readCell_build (a : Nat) : readCell m a =
    if 0x200 ≤ a ∧ a < 0x200 + program.length then program.getD (a - 0x200) 0
    else if a < 80 then font.toList.getD a 0 else 0 := by
  have hfont : 0 + font.toList.length ≤ 4096 := by simp
  cases (build_of_length_le font hlen).symm.trans h
  rw [readCell_storeBytes (storeBytes_wf rfl hfont) (by omega), readCell_storeBytes rfl hfont]
  by_cases ha : a < 80
  · simp [ha]
  · simp [ha, readCell, resetByte_of_ge (Nat.not_lt.mp ha)]

theorem readCell_build_font (a : Fin 80) : readCell m a.val = font[a] := by
  have hbelow : ¬ (0x200 ≤ a.val ∧ a.val < 0x200 + program.length) := by omega
  rw [readCell_build h hlen, if_neg hbelow, if_pos a.isLt]
  simp

theorem readCell_build_program {k : Nat} (hk : k < program.length) : readCell m (0x200 + k) = program[k] := by
  rw [readCell_build h hlen, if_pos ⟨by omega, by omega⟩]
  simp [hk]

/-- A cell outside the font area and the program reads as 0. -/
theorem readCell_build_outside {a : Nat} (hfont : 80 ≤ a) (hprogram : a < 0x200 ∨ 0x200 + program.length ≤ a) :
    readCell m a = 0 := by
  have hout : ¬ (0x200 ≤ a ∧ a < 0x200 + program.length) := by omega
  rw [readCell_build h hlen, if_neg hout, if_neg (Nat.not_lt.mpr hfont)]

end

/-- Settles O3: each range of addresses is one branch of `readCell_build`. -/
theorem loaderBuildsMemoryImage : Obligations.LoaderBuildsMemoryImage := by
  intro font program hlen
  obtain ⟨m, hm⟩ := build_ok font hlen
  refine ⟨m, hm, build_wf hm, readCell_build_font hm hlen, fun a hlo hhi => ?_,
    fun k hk => readCell_build_program hm hlen hk, fun a hlo _ => ?_⟩
  · exact readCell_build_outside hm hlen hlo (.inl (Nat.lt_succ_of_le hhi))
  · exact readCell_build_outside hm hlen (by omega) (.inr hlo)

/-- A failed load leaves the machine LoadFailed (60_exceptions.md R156, R157). -/
theorem boot_runState_of_length_gt {r : ResetInputs} (h : 3584 < r.program.length) :
    (boot r).runState = .loadFailed := by
  rw [boot, build_of_length_gt r.font h]

/-- Settles O4: the length check of `build` decides, and a LoadFailed machine is not Running. -/
theorem loaderRejectsLargeProgram : Obligations.LoaderRejectsLargeProgram := by
  refine ⟨fun font _ => build_of_length_gt font, fun font program hlen => ?_, fun r hlen => ?_⟩
  · obtain ⟨m, hm⟩ := build_ok font hlen
    exact ⟨m, hm, readCell_build_font hm hlen⟩
  · have hfailed := boot_runState_of_length_gt hlen
    exact ⟨hfailed, step_of_halted (hfailed ▸ nofun)⟩

theorem programOfWords_cons (w : Word) (ws : List Word) :
    programOfWords (w :: ws) = hiByte w :: loByte w :: programOfWords ws := rfl

@[simp] theorem length_programOfWords (ws : List Word) : (programOfWords ws).length = 2 * ws.length := by
  induction ws with
  | nil => rfl
  | cons w ws ih => simp only [programOfWords_cons, List.length_cons, ih]; omega

/-- Word `j` stands in two bytes of the image, high byte first. -/
theorem getElem?_programOfWords (ws : List Word) (j : Nat) :
    (programOfWords ws)[2 * j]? = ws[j]?.map hiByte ∧ (programOfWords ws)[2 * j + 1]? = ws[j]?.map loByte := by
  induction ws generalizing j with
  | nil => exact ⟨rfl, rfl⟩
  | cons w ws ih =>
    cases j with
    | zero => exact ⟨rfl, rfl⟩
    | succ j => exact ih j

/-- Settles O5: the two bytes of a word put together are the word. -/
theorem wordProgramIsBigEndian : Obligations.WordProgramIsBigEndian := by
  intro ws j h
  have hlen := length_programOfWords ws
  refine ⟨hlen, by omega, by omega, ?_⟩
  obtain ⟨hhi, hlo⟩ := getElem?_programOfWords ws j
  rw [List.getElem?_eq_getElem h, Option.map_some] at hhi hlo
  obtain ⟨_, hhi⟩ := List.getElem?_eq_some_iff.mp hhi
  obtain ⟨_, hlo⟩ := List.getElem?_eq_some_iff.mp hlo
  rw [hhi, hlo, wordOfBytes_bytes]

end Sys2Proof.Machine
